-- ==== Sys2Proof/Word.lean ====
section
/-! DEFINITION. The word types of the block: a byte of the stream, the 16-bit unit (R7, R50), a rendered text. -/

namespace Sys2Proof

/-- A byte of the input stream, an unsigned value 0 to 255 (R30). -/
abbrev Byte := BitVec 8

/-- The fixed-size group of bytes decoded at once: 16 bits, bit 15 the most significant (R7, R50). -/
abbrev Unit16 := BitVec 16

/-- A rendered line as its ASCII bytes, first character first (R121, R122; bytes, not characters: DEDUCED, log entry 17,
safe). -/
abbrev Text := List Byte

end Sys2Proof
end

