-- ==== Sys2Proof/Config.lean ====
section
/-! DEFINITION. What an implementation fixes (R6): the constants of the unit, and the OPEN parameters as one record that
the host-side views take as an argument, so that a statement about a view holds for every value of them.
The block has no free value (R9: "No value is drawn non-deterministically"), so nothing here is opaque. -/

namespace Sys2Proof

/-- The OPEN parameters of R6 that are not the input. No step, meaning or decode reads them (R16, R125).
`Sys2Proof/Machine/Ports.lean` holds the only functions that take one. -/
structure Config where
  /-- LINE_TERMINATOR: what the SINK puts after each line; the spec's default is the single byte 0x0A (R125, D12). -/
  lineTerminator : List Byte := [0x0A]
  /-- POS_W: the width in bits of a hardware realisation's position counter; the spec gives no default (R16, D4). -/
  posW : Nat
deriving DecidableEq, Repr

/-- UNIT_BITS of R6: the width of one instruction unit. -/
abbrev Config.unitBits : Nat := 16

end Sys2Proof
end

