-- ==== Sys2Proof/Syntax.lean ====
section
/-! DEFINITION. The block's vocabulary as types: register names (R10), the six-field record (R13), the decoded variant
(R14), the opcode table's rows (R52), the decode faults (R150), and `Instr`, one constructor per row of
spec/opcode_table.json (R104 to R107). -/

namespace Sys2Proof

/-- The width flag `w`: 0 narrow (byte), 1 wide (word) (R13, R80). -/
inductive Width where
  | byte
  | word
deriving DecidableEq, Repr

/-- The closed enumeration of the sixteen register operand NAMES; a name holds no value (R10, R12). -/
inductive Register where
  | al | cl | dl | bl | ah | ch | dh | bh
  | ax | cx | dx | bx | sp | bp | si | di
deriving DecidableEq, Repr

/-- The six unsigned fields of one unit, each of its own width (R13, R51). -/
structure EncodedInstruction where
  opcode : BitVec 6
  d      : BitVec 1
  w      : BitVec 1
  mode   : BitVec 2
  reg    : BitVec 3
  rm     : BitVec 3
deriving DecidableEq, Repr

/-- The spec's `Instruction`: the tagged union of decoded shapes, closed with one variant (R14, R124). -/
inductive Variant where
  | movRegReg (source destination : Register)
deriving DecidableEq, Repr

/-- The four synchronous decode faults (R150). -/
inductive DecodeFault where
  /-- The opcode field matches no table entry (R151). -/
  | unsupportedOpcode
  /-- The opcode matched; `mode` is not register-direct (R152). -/
  | unsupportedAddressingMode
  /-- A field value outside 0 to 7 was given to the Register Table (R153); no unit raises it. -/
  | malformedFieldValue
  /-- The stream ended inside a unit (R154). -/
  | truncatedInstruction
deriving DecidableEq, Repr

/-- The instruction classes an opcode-table entry can name; one exists (R53). -/
inductive OpcodeClass where
  | movRegisterMemory
deriving DecidableEq, Repr

/-- One entry of the opcode table: it selects the units `U` with `U & mask = pattern` (R52, D18). -/
structure OpcodeEntry where
  pattern : Unit16
  mask    : Unit16
  cls     : OpcodeClass
deriving DecidableEq, Repr

/-- The instructions, one constructor per row of spec/opcode_table.json, each with the unit's `reg` and `rm` fields.
A field is a 3-bit value, so a value outside 0 to 7 cannot be written (R82, D28; DEDUCED, log entry 8, safe). -/
inductive Instr where
  /-- `MOV r/m8, r8`: d = 0, w = 0, first byte 0x88 (R104). -/
  | movRm8R8 (reg rm : BitVec 3)
  /-- `MOV r/m16, r16`: d = 0, w = 1, first byte 0x89 (R105). -/
  | movRm16R16 (reg rm : BitVec 3)
  /-- `MOV r8, r/m8`: d = 1, w = 0, first byte 0x8A (R106). -/
  | movR8Rm8 (reg rm : BitVec 3)
  /-- `MOV r16, r/m16`: d = 1, w = 1, first byte 0x8B (R107). -/
  | movR16Rm16 (reg rm : BitVec 3)
deriving DecidableEq, Repr

end Sys2Proof
end

