-- ==== Sys2Proof/Machine/Operands.lean ====
section
/-! DEFINITION. The Register Table and its inverse: every operand form of the block is one lookup in it (R56, R80 to R84). -/

namespace Sys2Proof.Machine

/-- The width a `w` bit selects: 0 narrow, 1 wide (R80). -/
def widthOf (w : BitVec 1) : Width := if w = 0 then .byte else .word

/-- The `w` bit of a width (R11). -/
def widthBit : Width → BitVec 1
  | .byte => 0
  | .word => 1

/-- A column of the Register Table, indexed by field value (R80). -/
def registerTable : Width → Vector Register 8
  | .byte => #v[.al, .cl, .dl, .bl, .ah, .ch, .dh, .bh]
  | .word => #v[.ax, .cx, .dx, .bx, .sp, .bp, .si, .di]

/-- `regLookup(f, w)` on a field value of any size: outside 0 to 7 it fails fast with `MalformedFieldValue` and never
defaults; the check is made at run time, as R82 asks ("must be checked, not assumed"). -/
def regLookup (f : Nat) (w : Width) : Except DecodeFault Register :=
  match (registerTable w)[f]? with
  | some r => .ok r
  | none => .error .malformedFieldValue

/-- `regLookup(f, w)` of a 3-bit field, where the type discharges R82's check (R80, D28). -/
def registerOf (f : BitVec 3) (w : Width) : Register := (registerTable w)[f.toNat]

/-- The field value of a register's canonical pair (R11, R83). -/
def regField : Register → BitVec 3
  | .al | .ax => 0
  | .cl | .cx => 1
  | .dl | .dx => 2
  | .bl | .bx => 3
  | .ah | .sp => 4
  | .ch | .bp => 5
  | .dh | .si => 6
  | .bh | .di => 7

/-- The width of the operand a register names, a property of the name (R10). -/
def regWidth : Register → Width
  | .al | .cl | .dl | .bl | .ah | .ch | .dh | .bh => .byte
  | .ax | .cx | .dx | .bx | .sp | .bp | .si | .di => .word

/-- `regEncode(r)`: the canonical pair of a register, the inverse of `regLookup` (R83). -/
def regEncode (r : Register) : BitVec 3 × Width := (regField r, regWidth r)

/-- The 4-bit code `id = w ++ field` of a register (R11). -/
def regId (r : Register) : BitVec 4 := widthBit (regWidth r) ++ regField r

/-- The number of bits of the operand a width names (R10). -/
def widthBits : Width → Nat
  | .byte => 8
  | .word => 16

/-- The source operand of a variant (R14). -/
def sourceOf : Variant → Register
  | .movRegReg s _ => s

/-- The destination operand of a variant (R14). -/
def destinationOf : Variant → Register
  | .movRegReg _ t => t

end Sys2Proof.Machine
end

