-- ==== Sys2Proof/Decode.lean ====
section
/-! DEFINITION. The combinational core for one unit (R109): the bit-field extractor (R90 to R93), the opcode table (R52,
R53), the Opcode Dispatcher (R100, R101), the decoder from bytes to `Instr`, total and rejecting by name, and the encoder. -/

namespace Sys2Proof

open Sys2Proof.Machine

/-! ## Units and bytes -/

/-- The big-endian unit of two bytes, the first one pulled the more significant (R34). -/
def joinBytes (b0 b1 : Byte) : Unit16 := b0 ++ b1

/-- The two bytes of a unit in stream order (R34). -/
def bytesOfUnit (u : Unit16) : List Byte := [u.extractLsb' 8 8, u.extractLsb' 0 8]

/-- What FAULT_UNIT records of the one byte of a truncated unit: the byte in [15:8], zero in [7:0] (R154). -/
def truncatedUnit (b : Byte) : Unit16 := joinBytes b 0

/-! ## Bit-field extractor -/

/-- `extract(U)`: the six fields of a unit; total, and it consults no table (R51, R90, R91, R93). -/
def extract (u : Unit16) : EncodedInstruction where
  opcode := u.extractLsb' 10 6
  d      := u.extractLsb' 9 1
  w      := u.extractLsb' 8 1
  mode   := u.extractLsb' 6 2
  reg    := u.extractLsb' 3 3
  rm     := u.extractLsb' 0 3

/-- `recompose(E)`: the unit with these fields (R92). -/
def recompose (e : EncodedInstruction) : Unit16 := e.opcode ++ e.d ++ e.w ++ e.mode ++ e.reg ++ e.rm

/-! ## Opcode table and dispatcher -/

/-- The MOV opcode pattern (R53, D26). -/
def movOpcode : BitVec 6 := 0b100010

/-- The one supported `mode`, register-direct (R55, D25). -/
def registerDirect : BitVec 2 := 0b11

/-- The opcode table: its one entry (R53). -/
def opcodeTable : List OpcodeEntry := [{ pattern := 0x8800, mask := 0xFC00, cls := .movRegisterMemory }]

/-- Whether an entry matches a field record. R93 makes the dispatcher a function of the record, so the entry's unit
pattern is compared with the record's own unit. -/
def entrySelects (t : OpcodeEntry) (e : EncodedInstruction) : Bool := recompose e &&& t.mask == t.pattern

/-- Steps 2 to 4 of R101 for the MOV entry: addressing mode; both operands with one shared width flag (R103); direction
(R102: d = 0 makes `reg` the source and `rm` the destination). -/
def resolveMov (e : EncodedInstruction) : Except DecodeFault Variant :=
  if e.mode ≠ registerDirect then .error .unsupportedAddressingMode
  else
    match regLookup e.reg.toNat (widthOf e.w) with
    | .error f => .error f
    | .ok a =>
      match regLookup e.rm.toNat (widthOf e.w) with
      | .error f => .error f
      | .ok b => if e.d = 0 then .ok (.movRegReg a b) else .ok (.movRegReg b a)

/-- The resolver of an opcode class (R52). -/
def resolve : OpcodeClass → EncodedInstruction → Except DecodeFault Variant
  | .movRegisterMemory => resolveMov

/-- `dispatch(E)`: one variant, or one decode fault; the opcode first (R100, R101). -/
def dispatch (e : EncodedInstruction) : Except DecodeFault Variant :=
  match opcodeTable.find? (entrySelects · e) with
  | none => .error .unsupportedOpcode
  | some t => resolve t.cls e

/-- `decode16(U) = dispatch(extract(U))` (R109). -/
def decode16 (u : Unit16) : Except DecodeFault Variant := dispatch (extract u)

/-! ## Decoder -/

/-- The opcode-table row of a record whose unit decodes, named by `d` and `w` (R54, R58). -/
def formOf (e : EncodedInstruction) : Instr :=
  if e.d = 0 then
    if e.w = 0 then .movRm8R8 e.reg e.rm else .movRm16R16 e.reg e.rm
  else
    if e.w = 0 then .movR8Rm8 e.reg e.rm else .movR16Rm16 e.reg e.rm

/-- The instruction of a unit. Whether it decodes, and which fault it raises, is the dispatcher's answer. -/
def decodeUnit (u : Unit16) : Except DecodeFault Instr :=
  match decode16 u with
  | .error f => .error f
  | .ok _ => .ok (formOf (extract u))

/-- What bytes that are no instruction are: the end of the stream, or a decode fault with what FAULT_UNIT records. -/
inductive Rejection where
  /-- The pull returned no byte: no fault (R133, R155). -/
  | endOfStream
  /-- A decode fault and its `info` (R157). -/
  | decodeFault (f : DecodeFault) (info : Unit16)
deriving DecidableEq, Repr

/-- The decoder on the bytes of a pull, total on any list. The length is examined first, so a lone byte is a truncation
whatever its opcode bits are (R130, R134, R156). Bytes after the first two are not looked at (R50; no pull has them:
DESIGN CHOICE, log entry 14, safe). -/
def decode : List Byte → Except Rejection Instr
  | [] => .error .endOfStream
  | [b] => .error (.decodeFault .truncatedInstruction (truncatedUnit b))
  | b0 :: b1 :: _ =>
    match decodeUnit (joinBytes b0 b1) with
    | .ok i => .ok i
    | .error f => .error (.decodeFault f (joinBytes b0 b1))

/-! ## Encoder -/

/-- The field record of an instruction, from R51, R53, R54 and R55. -/
def fieldsOf : Instr → EncodedInstruction
  | .movRm8R8 reg rm => { opcode := movOpcode, d := 0, w := 0, mode := registerDirect, reg := reg, rm := rm }
  | .movRm16R16 reg rm => { opcode := movOpcode, d := 0, w := 1, mode := registerDirect, reg := reg, rm := rm }
  | .movR8Rm8 reg rm => { opcode := movOpcode, d := 1, w := 0, mode := registerDirect, reg := reg, rm := rm }
  | .movR16Rm16 reg rm => { opcode := movOpcode, d := 1, w := 1, mode := registerDirect, reg := reg, rm := rm }

/-- The unit of an instruction. -/
def encodeUnit (i : Instr) : Unit16 := recompose (fieldsOf i)

/-- The two bytes of an instruction in stream order. -/
def encode (i : Instr) : List Byte := bytesOfUnit (encodeUnit i)

/-! ## The opcode table's numbering of bits -/

/-- The two bytes, in stream order, of the instruction whose bits are the low `nbits` of `w`, numbered as
spec/opcode_table.json numbers them; bits above `nbits` are 0. A row is one word, the unit, stored first byte [15:8]
(R34; DEDUCED, log entry 15, safe). -/
def tableWordBytes (nbits w : Nat) : List Byte := bytesOfUnit (BitVec.ofNat 16 (w % 2 ^ nbits))

/-- The instruction the decoder reads from a table word; a word longer than the one unit is none (R50). -/
def decodeTableWord (nbits w : Nat) : Option Instr :=
  if nbits ≤ Config.unitBits then
    match decode (tableWordBytes nbits w) with
    | .ok i => some i
    | .error _ => none
  else none

end Sys2Proof
end

