-- ==== Sys2Proof/Machine/Render.lean ====
section
/-! DEFINITION. Instruction variants as text (R120 to R125). -/

namespace Sys2Proof.Machine

/-- Characters as their ASCII bytes (R121). -/
def ascii (cs : List Char) : Text := cs.map fun c => BitVec.ofNat 8 c.toNat

/-- `name(r)`: the canonical name, two capital letters (R121). -/
def regName : Register → Text
  | .al => ascii ['A', 'L']
  | .cl => ascii ['C', 'L']
  | .dl => ascii ['D', 'L']
  | .bl => ascii ['B', 'L']
  | .ah => ascii ['A', 'H']
  | .ch => ascii ['C', 'H']
  | .dh => ascii ['D', 'H']
  | .bh => ascii ['B', 'H']
  | .ax => ascii ['A', 'X']
  | .cx => ascii ['C', 'X']
  | .dx => ascii ['D', 'X']
  | .bx => ascii ['B', 'X']
  | .sp => ascii ['S', 'P']
  | .bp => ascii ['B', 'P']
  | .si => ascii ['S', 'I']
  | .di => ascii ['D', 'I']

/-- `render(i)`: mnemonic, one space, DESTINATION, comma, one space, source; no terminator (R120, R125). -/
def render : Variant → Text
  | .movRegReg s t => ascii ['M', 'O', 'V', ' '] ++ regName t ++ ascii [',', ' '] ++ regName s

end Sys2Proof.Machine
end

