-- ==== Sys2Proof/Machine/State.lean ====
section
/-! DEFINITION. The state of the block (R16 to R21), as plain data, with the reasons a step can stop. -/

namespace Sys2Proof.Machine

/-- The stream as cells (offset, byte), offsets strictly rising; an unlisted offset reads as no value (R30, R31). -/
abbrev Memory := List Host.Cell

/-- STATUS (R17). The value 3 is never taken, so it is no constructor (DEDUCED, log entry 12, safe). -/
inductive Status where
  | run
  | done
  | fault
deriving DecidableEq, Repr

/-- What one `Emit` hands to the sink: the variant and its text (R131, D11). -/
structure Emission where
  variant : Variant
  text    : Text
deriving DecidableEq, Repr

/-- The sequencer's state (R16 to R20) and, beside it, the input stream the run was launched with. -/
structure State where
  /-- `S`, the parameter of the run; no step writes it (R20, R30, R42). It stands here because `step` has one argument:
  DESIGN CHOICE, log entry 2, safe. -/
  stream    : Memory
  /-- `pos`, the offset of the next unit to pull (R16). -/
  pos       : Nat
  /-- STATUS (R17). -/
  status    : Status
  /-- CAUSE; `none` is its code 0, no fault raised since reset (R18, R150). -/
  cause     : Option DecodeFault
  /-- FAULT_UNIT (R18). -/
  faultUnit : Unit16
  /-- FAULT_POS (R18). -/
  faultPos  : Nat
  /-- `out`, what the sink has received, oldest first (R19). -/
  out       : List Emission
deriving DecidableEq, Repr

/-- Reasons the MODEL stops with a fault: there are none. Every fault the spec gives the block is a decode fault, whose
entry R157 describes and the model takes as a next state (DEDUCED, log entry 6, safe). -/
inductive Fault : Type
deriving DecidableEq, Repr

/-- Reasons the model refuses a step. -/
inductive Refusal where
  /-- An instruction that has no meaning yet; raised by an arm of `exec` only. Safe. -/
  | notModelled (mnemonic : String)
  /-- The cells are no stream (offsets 0 to L - 1): a source that would answer short while bytes remain, which R31 puts
  outside the contract and D20 and U10 tell a model to refuse (DEDUCED, log entry 4). Raised by
  `step`, in RUN only. Safe. -/
  | sourceNotAStream
deriving DecidableEq, Repr

/-- The machine right after reset (R21, R180). No stream has been chosen yet: the empty one stands for that (DESIGN CHOICE,
log entry 1, unsafe). -/
def State.reset : State where
  stream    := []
  pos       := 0
  status    := .run
  cause     := none
  faultUnit := 0
  faultPos  := 0
  out       := []

end Sys2Proof.Machine
end

