-- ==== Sys2Proof/Machine/Ops.lean ====
section
/-! DEFINITION. The named operations over the stream and the sequencer's state: reads and the pull (R30 to R32), emission
(R131), fault entry (R157), the end of the stream (R133), reset and launch (R180, R182). -/

namespace Sys2Proof.Machine

/-! ## The stream -/

/-- What an unlisted offset reads as: no value, since an offset from L on does not exist (R30). -/
def Memory.unlisted : Option Byte := none

/-- `S[a]`. -/
def Memory.readByte : Memory → Nat → Option Byte
  | [], _ => Memory.unlisted
  | (k, b) :: m, a => if a = k then some b else Memory.readByte m a

/-- The offsets are strictly rising from `lo` on. -/
def Memory.risingFrom : Nat → Memory → Bool
  | _, [] => true
  | lo, (k, _) :: m => decide (lo ≤ k) && Memory.risingFrom (k + 1) m

/-- The canonical form: offsets strictly rising. An unlisted offset reads as no value, so no entry equals it. -/
def Memory.wf (m : Memory) : Bool := Memory.risingFrom 0 m

/-- The offsets are `lo`, `lo + 1`, … without a gap. -/
def Memory.contiguousFrom : Nat → Memory → Bool
  | _, [] => true
  | lo, (k, _) :: m => k == lo && Memory.contiguousFrom (lo + 1) m

/-- The cells are a stream: offsets 0 to L - 1 (R30). -/
def Memory.isStream (m : Memory) : Bool := Memory.contiguousFrom 0 m

/-- `L`, the number of bytes of the stream (R30). -/
def Memory.size (m : Memory) : Nat := m.length

/-- The bytes of the stream in order. -/
def Memory.bytes (m : Memory) : List Byte := m.map Prod.snd

/-- The cells of bytes placed from offset `a` on. -/
def Memory.place : Nat → List Byte → Memory
  | _, [] => []
  | a, b :: bs => (a, b) :: Memory.place (a + 1) bs

/-- The stream of a byte sequence (R30). -/
def Memory.ofBytes (bs : List Byte) : Memory := Memory.place 0 bs

/-- The HOST's placing of a byte before a run; the block itself never writes (R33). The form stays canonical
(DESIGN CHOICE, log entry 3, safe). -/
def Memory.write : Memory → Nat → Byte → Memory
  | [], a, b => [(a, b)]
  | (k, c) :: m, a, b =>
    if a < k then (a, b) :: (k, c) :: m
    else if a = k then (a, b) :: m
    else (k, c) :: Memory.write m a b

/-- The HOST's placing of bytes from offset `a` on. -/
def Memory.load : Memory → Nat → List Byte → Memory
  | m, _, [] => m
  | m, a, b :: bs => Memory.load (Memory.write m a b) (a + 1) bs

/-- `MemRead(addr, n)`: the `n` bytes from `addr` on, in stream order; offsets that do not exist give none (R32). -/
def Memory.memRead (m : Memory) (addr : Nat) : Nat → List Byte
  | 0 => []
  | n + 1 =>
    match m.readByte addr with
    | some b => b :: Memory.memRead m (addr + 1) n
    | none => []

/-- `Pull(pos)`: the one transaction with the byte source, two bytes asked for, fewer only at the end (R31). -/
def Memory.pull (m : Memory) (pos : Nat) : List Byte :=
  if pos + 2 ≤ m.size then m.memRead pos 2
  else if pos + 1 = m.size then m.memRead pos 1
  else []

/-! ## The sequencer -/

/-- Rule R131, the effect of a unit that decodes: `Emit(i)`, then `pos <- pos + 2`. -/
def State.emit (s : State) (v : Variant) : State :=
  { s with out := s.out ++ [{ variant := v, text := render v }], pos := s.pos + 2 }

/-- Fault entry, `raise f(info)` (R157): the fault record and STATUS are written, `pos` and `out` are not. It is the one
way an exception is taken. Nothing returns from it: only reset leaves FAULT (R159). -/
def State.takeFault (s : State) (f : DecodeFault) (info : Unit16) : State :=
  { s with cause := some f, faultUnit := info, faultPos := s.pos, status := .fault }

/-- Rule R133, the clean end of the stream. -/
def State.endRun (s : State) : State := { s with status := .done }

/-- Reset, applicable in any state; the stream stays the one the host has chosen (R180). An operation of the host beside
the step (DESIGN CHOICE, log entry 9, unsafe). -/
def State.applyReset (s : State) : State := { State.reset with stream := s.stream }

/-- Launch: the state after reset with a stream chosen (R182). -/
def State.launch (bs : List Byte) : State := { State.reset with stream := Memory.ofBytes bs }

/-- The bytes the sequencer pulls for its next unit (R130). -/
def State.fetch (s : State) : List Byte := s.stream.pull s.pos

/-- What the sequencer does with bytes that are no instruction (R132, R133, R134). -/
def State.reject (s : State) : Rejection → State
  | .endOfStream => s.endRun
  | .decodeFault f info => s.takeFault f info

end Sys2Proof.Machine
end

