-- ==== Sys2Proof/Machine/Mov.lean ====
section
/-! DEFINITION. The meanings of the four MOV forms (R104 to R107). A meaning is the decoding the block produces: the variant
is emitted with its text and `pos` moves to the next unit (R131). No register value, flag or stream byte is touched
(R12, R20, R33), since nothing is executed (R5, D19). A meaning does not test STATUS: `step` runs it in RUN only (DESIGN
CHOICE, log entry 7, safe). -/

namespace Sys2Proof.Machine

/-- `MOV r/m8, r8` (R104): source `regLookup(reg, 0)`, destination `regLookup(rm, 0)`. -/
def execMovRm8R8 (reg rm : BitVec 3) (s : State) : Host.Outcome State Fault Refusal :=
  .next (s.emit (.movRegReg (registerOf reg .byte) (registerOf rm .byte)))

/-- `MOV r/m16, r16` (R105): source `regLookup(reg, 1)`, destination `regLookup(rm, 1)`. -/
def execMovRm16R16 (reg rm : BitVec 3) (s : State) : Host.Outcome State Fault Refusal :=
  .next (s.emit (.movRegReg (registerOf reg .word) (registerOf rm .word)))

/-- `MOV r8, r/m8` (R106): source `regLookup(rm, 0)`, destination `regLookup(reg, 0)`. -/
def execMovR8Rm8 (reg rm : BitVec 3) (s : State) : Host.Outcome State Fault Refusal :=
  .next (s.emit (.movRegReg (registerOf rm .byte) (registerOf reg .byte)))

/-- `MOV r16, r/m16` (R107): source `regLookup(rm, 1)`, destination `regLookup(reg, 1)`. -/
def execMovR16Rm16 (reg rm : BitVec 3) (s : State) : Host.Outcome State Fault Refusal :=
  .next (s.emit (.movRegReg (registerOf rm .word) (registerOf reg .word)))

end Sys2Proof.Machine
end

