-- ==== Sys2Proof/Machine/Step.lean ====
section
/-! DEFINITION. One step of the sequencer (R130), and the host's placing of one instruction where the next step fetches. -/

namespace Sys2Proof.Machine

/-- One step. In DONE and FAULT nothing happens, however often the block is stepped (R135; that this is a next state is
DEDUCED, log entry 5, safe). In RUN the unit at `pos` is
pulled and decoded, and its instruction runs or its rejection is entered (R130 to R134). Cells that are no stream are
refused (R31, D20, U10). -/
def step (s : State) : Host.Outcome State Fault Refusal :=
  match s.status with
  | .done => .next s
  | .fault => .next s
  | .run =>
    if s.stream.isStream then
      match decode s.fetch with
      | .ok i => exec i s
      | .error r => .next (s.reject r)
    else .refused .sourceNotAStream

/-- The state with the instruction of a table word placed at `pos` and STATUS at RUN, so that the next step fetches and
runs it; nothing else changes (DESIGN CHOICE, log entry 3, safe). -/
def State.withFetchWord (s : State) (nbits w : Nat) : State :=
  { s with stream := s.stream.load s.pos (tableWordBytes nbits w), status := .run }

end Sys2Proof.Machine
end

