-- ==== Sys2Proof/Machine/Flags.lean ====
section
/-! DEFINITION. The block has no flag (R20): no instruction computes one. What it has in their place are the codes of
STATUS and CAUSE and the bits of FAULT_UNIT that a fault is diagnosed from (R17, R18, R150). -/

namespace Sys2Proof.Machine

/-- The value of STATUS: RUN 0, DONE 1, FAULT 2 (R17). -/
def statusCode : Status → BitVec 2
  | .run => 0
  | .done => 1
  | .fault => 2

/-- The cause code of a fault (R150). -/
def faultCode : DecodeFault → BitVec 3
  | .unsupportedOpcode => 1
  | .unsupportedAddressingMode => 2
  | .malformedFieldValue => 3
  | .truncatedInstruction => 4

/-- The value of CAUSE: 0 until a fault is raised (R18, R150). -/
def causeCode : Option DecodeFault → BitVec 3
  | none => 0
  | some f => faultCode f

/-- The offending opcode bits, `FAULT_UNIT[15:10]` (R18). -/
def offendingOpcode (s : State) : BitVec 6 := s.faultUnit.extractLsb' 10 6

/-- The offending mode bits, `FAULT_UNIT[7:6]` (R18). -/
def offendingMode (s : State) : BitVec 2 := s.faultUnit.extractLsb' 6 2

end Sys2Proof.Machine
end

