-- ==== Sys2Proof/Machine/Ports.lean ====
section
/-! DEFINITION. What the outside sees of the block, at transaction level (R139, D2, D11): the registers the host reads, the
binary form of an emission, the bytes at the sink, and the position as a hardware counter would show it. Nothing here
is read by a step. -/

namespace Sys2Proof.Machine

/-- The registers the host may read (R139), as their numeric codes. -/
structure HostView where
  status    : BitVec 2
  cause     : BitVec 3
  faultUnit : Unit16
  faultPos  : Nat
  pos       : Nat
deriving DecidableEq, Repr

/-- What the host reads in a state (R17, R18, R139). -/
def State.hostView (s : State) : HostView where
  status    := statusCode s.status
  cause     := causeCode s.cause
  faultUnit := s.faultUnit
  faultPos  := s.faultPos
  pos       := s.pos

/-- The binary form of a variant: the tag, then the 4-bit ids of destination and source (R14). R14 gives the tag a value
and no width: DESIGN CHOICE, a natural number, log entry 11, safe. -/
structure VariantCode where
  tag         : Nat
  destination : BitVec 4
  source      : BitVec 4
deriving DecidableEq, Repr

/-- The binary form of a variant; `MovRegReg` has tag 0 (R14). -/
def variantCode : Variant → VariantCode
  | .movRegReg s t => { tag := 0, destination := regId t, source := regId s }

/-- A line as one fixed 80-bit value (R122). Its first character is the most significant byte: DESIGN CHOICE, log
entry 10, unsafe. -/
def packText (t : Text) : BitVec 80 := t.foldl (fun acc b => (acc <<< 8) ||| b.setWidth 80) 0

/-- The bytes at the sink after the run so far: each line and then the SINK's terminator (R125). -/
def State.sinkBytes (c : Config) (s : State) : List Byte := s.out.flatMap fun e => e.text ++ c.lineTerminator

/-- The position as a counter of `POS_W` bits shows it (R16, D4). R16 specifies it for streams shorter than `2^POS_W` bytes
only; that a longer one wraps is DESIGN CHOICE, log entry 13, unsafe. -/
def State.posCounter (c : Config) (s : State) : BitVec c.posW := BitVec.ofNat c.posW s.pos

end Sys2Proof.Machine
end

