-- ==== Sys2Proof/WellFormed.lean ====
section
/-! DEFINITION. What is well formed. An `Instr` carries two 3-bit fields and every pair of them is an instruction (R108), so
its type is its check (D28). What the types do not say is checked here: operands of one width (R84, R103), register
fields given as numbers (R82), and a table no two of whose entries match one unit (R52, D18). -/

namespace Sys2Proof

open Sys2Proof.Machine

/-- Both operands of a variant have one width (R84, R103). -/
def Variant.wf (v : Variant) : Bool := regWidth (sourceOf v) == regWidth (destinationOf v)

/-- A register field given as a number lies in the Register Table's domain (R82). -/
def fieldWf (f : Nat) : Bool := decide (f < 8)

/-- An entry's pattern has no bit outside its mask, so that some unit matches it (R52 does not ask for this: DESIGN
CHOICE, log entry 16, safe). -/
def OpcodeEntry.wf (t : OpcodeEntry) : Bool := t.pattern &&& t.mask == t.pattern

/-- No unit matches both entries: they differ on a bit that both masks keep. -/
def OpcodeEntry.disjoint (s t : OpcodeEntry) : Bool := (s.pattern ^^^ t.pattern) &&& (s.mask &&& t.mask) != 0

/-- A table is well formed when its entries are and no two match the same unit (R52, D18). -/
def opcodeTableWf : List OpcodeEntry → Bool
  | [] => true
  | t :: ts => t.wf && ts.all t.disjoint && opcodeTableWf ts

end Sys2Proof
end

