-- ==== Sys2Proof/Safety.lean ====
section
/-! DEFINITION. What the statements call a run, its end, and a state the block can be in. -/

namespace Sys2Proof.Machine

/-- The full units `U_0, U_1, …` of a byte sequence; a last odd byte belongs to none (R137). -/
def unitsOf : List Byte → List Unit16
  | b0 :: b1 :: bs => joinBytes b0 b1 :: unitsOf bs
  | _ => []

/-- The line of a variant as `Emit` hands it over (R131). -/
def lineOf (v : Variant) : Emission := { variant := v, text := render v }

/-- A line is the decoding of a unit (R40). -/
def lineDecodes (u : Unit16) (e : Emission) : Prop := decode16 u = .ok e.variant ∧ e.text = render e.variant

/-- The run is over (R138). -/
def State.ended (s : State) : Prop := s.status ≠ .run

/-- The state is reached from reset with the stream `bs` after `n` steps (R182). -/
def ReachedFrom (bs : List Byte) (n : Nat) (t : State) : Prop :=
  Sys2Proof.core.run n (State.launch bs) = .next t

/-- What holds of the block between steps. -/
structure State.Inv (s : State) : Prop where
  /-- The stream has no gap (R30). -/
  stream_ok : s.stream.isStream = true
  /-- `pos` is even (R16) -/
  pos_even : s.pos % 2 = 0
  /-- and never beyond the end of the stream (R131, R133). -/
  pos_le : s.pos ≤ s.stream.size
  /-- One line per unit passed (R19). -/
  out_length : s.out.length = s.pos / 2
  /-- The lines are the decodings of the units passed, in input order (R40). -/
  out_decodes : List.Forall₂ lineDecodes ((unitsOf s.stream.bytes).take s.out.length) s.out
  /-- The fault record holds its reset value while STATUS is not FAULT (R18). -/
  record_clear : s.status ≠ .fault → s.cause = none ∧ s.faultUnit = 0 ∧ s.faultPos = 0
  /-- In FAULT the record names the fault, the unit and the offset of the bytes at `pos` (R18, R157). -/
  record_holds : s.status = .fault →
    s.faultPos = s.pos ∧ ∃ f, s.cause = some f ∧ decode s.fetch = .error (.decodeFault f s.faultUnit)
  /-- DONE is entered at the end of the stream only (R133). -/
  done_at_end : s.status = .done → s.pos = s.stream.size

end Sys2Proof.Machine
end

