-- ==== Sys2Proof/Certificates/Slice0/Obligations.lean ====
section
/-! DEFINITION. The statements for the provers, in the order of spec/: the Register Table, the extractor, the
dispatcher and the encodings, rendering, the four instructions, the byte stream, the step, faults, reset, runs. -/

open Sys2Proof Sys2Proof.Machine

/-! ## Register Table -/

/-- R10: there are exactly sixteen register names, no two equal, eight naming an 8-bit and eight a 16-bit operand. -/
def Obligations.RegistersAreTheSixteenNames : Prop :=
  let bytes : List Register := [.al, .cl, .dl, .bl, .ah, .ch, .dh, .bh]
  let words : List Register := [.ax, .cx, .dx, .bx, .sp, .bp, .si, .di]
  (bytes ++ words).Nodup ∧ (∀ r : Register, r ∈ bytes ++ words) ∧
  (∀ r ∈ bytes, widthBits (regWidth r) = 8) ∧ ∀ r ∈ words, widthBits (regWidth r) = 16

/-- R80: the sixteen rows of the table (their order is the spec's choice D24); a 3-bit field always names one of them.
-/
def Obligations.RegisterTableRows : Prop :=
  (regLookup 0 .byte = .ok .al ∧ regLookup 1 .byte = .ok .cl ∧ regLookup 2 .byte = .ok .dl ∧
   regLookup 3 .byte = .ok .bl ∧ regLookup 4 .byte = .ok .ah ∧ regLookup 5 .byte = .ok .ch ∧
   regLookup 6 .byte = .ok .dh ∧ regLookup 7 .byte = .ok .bh) ∧
  (regLookup 0 .word = .ok .ax ∧ regLookup 1 .word = .ok .cx ∧ regLookup 2 .word = .ok .dx ∧
   regLookup 3 .word = .ok .bx ∧ regLookup 4 .word = .ok .sp ∧ regLookup 5 .word = .ok .bp ∧
   regLookup 6 .word = .ok .si ∧ regLookup 7 .word = .ok .di) ∧
  ∀ (f : BitVec 3) (w : Width), regLookup f.toNat w = .ok (registerOf f w)

/-- R82: a field value outside 0 to 7 raises `MalformedFieldValue`, every other one names a register, and no unit
reaches the fault (D28; the last clause is the spec's "[derived: from rule R80 and 41_field_extractor.md rule R90]").
-/
def Obligations.RegLookupFailsFastOutsideItsDomain : Prop :=
  (∀ (f : Nat) (w : Width), 8 ≤ f → regLookup f w = .error .malformedFieldValue) ∧
  (∀ (f : Nat) (w : Width), f < 8 → ∃ r, regLookup f w = .ok r) ∧
  ∀ u : Unit16, decode16 u ≠ .error .malformedFieldValue

/-- R83: the round trip of lookup and canonical pair, in both directions. -/
def Obligations.RegisterRoundTrip : Prop :=
  (∀ (f : BitVec 3) (w : Width) (r : Register), regLookup f.toNat w = .ok r → regEncode r = (f, w)) ∧
  ∀ r : Register, regLookup (regEncode r).1.toNat (regEncode r).2 = .ok r

/-- R11: the 4-bit code of every register is `8*w + field` of its canonical pair; the sixteen values are the list of
R11 (the code is the spec's choice D10). -/
def Obligations.RegisterIdPacksThePair : Prop :=
  (∀ (f : BitVec 3) (w : BitVec 1), (regId (registerOf f (widthOf w))).toNat = 8 * w.toNat + f.toNat) ∧
  ([Register.al, .cl, .dl, .bl, .ah, .ch, .dh, .bh, .ax, .cx, .dx, .bx, .sp, .bp, .si, .di].map
    fun r => (regId r).toNat) = List.range 16

/-! ## Extractor -/

/-- R90: the six fields of a unit as shifts and masks. -/
def Obligations.ExtractTakesTheSixFields : Prop :=
  ∀ u : Unit16,
    (extract u).opcode.toNat = (u.toNat >>> 10) &&& 0x3F ∧
    (extract u).d.toNat = (u.toNat >>> 9) &&& 0x1 ∧
    (extract u).w.toNat = (u.toNat >>> 8) &&& 0x1 ∧
    (extract u).mode.toNat = (u.toNat >>> 6) &&& 0x3 ∧
    (extract u).reg.toNat = (u.toNat >>> 3) &&& 0x7 ∧
    (extract u).rm.toNat = u.toNat &&& 0x7

/-- R92: `recompose` is the shift-and-or formula, and inverts `extract` on both sides. -/
def Obligations.RecomposeInvertsExtract : Prop :=
  (∀ e : EncodedInstruction, (recompose e).toNat =
    (e.opcode.toNat <<< 10) ||| (e.d.toNat <<< 9) ||| (e.w.toNat <<< 8) ||| (e.mode.toNat <<< 6) |||
      (e.reg.toNat <<< 3) ||| e.rm.toNat) ∧
  (∀ u : Unit16, recompose (extract u) = u) ∧
  ∀ e : EncodedInstruction, extract (recompose e) = e

/-! ## Dispatcher and encodings -/

/-- R53: the table has the one entry (its value is the spec's choice D26), which on a record tests exactly its opcode
field. -/
def Obligations.OpcodeTableHasTheOneMovEntry : Prop :=
  opcodeTable = [{ pattern := 0x8800, mask := 0xFC00, cls := .movRegisterMemory }] ∧
  ∀ t ∈ opcodeTable, ∀ e : EncodedInstruction, entrySelects t e = true ↔ e.opcode = 0b100010

/-- R52's well-formedness, for every table: a table that passes the check has at most one entry for any record. -/
def Obligations.WellFormedTableSelectsAtMostOneEntry : Prop :=
  ∀ ts : List OpcodeEntry, opcodeTableWf ts = true → ∀ e : EncodedInstruction, (ts.filter (entrySelects · e)).length ≤ 1

/-- R101: opcode, then addressing mode, then both operands with one width flag, then direction (the order is the
spec's choice D9). -/
def Obligations.DispatcherChecksInOrder : Prop :=
  ∀ e : EncodedInstruction,
    (e.opcode ≠ 0b100010 → dispatch e = .error .unsupportedOpcode) ∧
    (e.opcode = 0b100010 → e.mode ≠ 0b11 → dispatch e = .error .unsupportedAddressingMode) ∧
    (e.opcode = 0b100010 → e.mode = 0b11 →
      ∃ a b, regLookup e.reg.toNat (widthOf e.w) = .ok a ∧ regLookup e.rm.toNat (widthOf e.w) = .ok b ∧
        dispatch e = .ok (if e.d = 0 then .movRegReg a b else .movRegReg b a))

/-- R102: which field names which operand under each `d`, and flipping bit 9 of a decodable unit swaps the operands.
-/
def Obligations.DirectionBitSwapsOperands : Prop :=
  (∀ (e : EncodedInstruction) (v : Variant), dispatch e = .ok v →
    (e.d = 0 → regLookup e.reg.toNat (widthOf e.w) = .ok (sourceOf v) ∧
      regLookup e.rm.toNat (widthOf e.w) = .ok (destinationOf v)) ∧
    (e.d = 1 → regLookup e.reg.toNat (widthOf e.w) = .ok (destinationOf v) ∧
      regLookup e.rm.toNat (widthOf e.w) = .ok (sourceOf v))) ∧
  (∀ (u : Unit16) (s t : Register), decode16 u = .ok (.movRegReg s t) →
    decode16 (u ^^^ 0x0200) = .ok (.movRegReg t s)) ∧
  ∀ s t : Register, render (.movRegReg s t) = ascii ['M', 'O', 'V', ' '] ++ regName t ++ ascii [',', ' '] ++ regName s

/-- R103: the `w` bit of a decoded unit is the width of both operands, so no variant mixes widths (the latter
"[derived: from rule R101 and 40_register_table.md rule R84]"). -/
def Obligations.OperandsShareOneWidth : Prop :=
  ∀ (u : Unit16) (v : Variant), decode16 u = .ok v →
    regWidth (sourceOf v) = widthOf (extract u).w ∧ regWidth (destinationOf v) = widthOf (extract u).w ∧ v.wf = true

/-- R59, R60 and the spec's own sentence of R61 "[derived: from rules R58, R59, R60]": the three classes of units by
mask and match, and how many units each has. -/
def Obligations.UnitsSplitIntoThreeClasses : Prop :=
  (∀ u : Unit16,
    ((∃ v, decode16 u = .ok v) ↔ u &&& 0xFCC0 = 0x88C0) ∧
    (decode16 u = .error .unsupportedAddressingMode ↔ u &&& 0xFC00 = 0x8800 ∧ u &&& 0x00C0 ≠ 0x00C0) ∧
    (decode16 u = .error .unsupportedOpcode ↔ u &&& 0xFC00 ≠ 0x8800) ∧
    decode16 u ≠ .error .malformedFieldValue ∧ decode16 u ≠ .error .truncatedInstruction) ∧
  ((List.range 65536).countP fun n => (decode16 (BitVec.ofNat 16 n)).isOk) = 256 ∧
  ((List.range 65536).countP fun n =>
    match decode16 (BitVec.ofNat 16 n) with
    | .error f => f == .unsupportedAddressingMode
    | .ok _ => false) = 768 ∧
  ((List.range 65536).countP fun n =>
    match decode16 (BitVec.ofNat 16 n) with
    | .error f => f == .unsupportedOpcode
    | .ok _ => false) = 64512

/-- R58, "[derived: from rules R51, R53, R55]": each of the four forms is exactly the units its mask and match select,
with `reg` and `rm` free; together they are the units with `U & 0xFCC0 = 0x88C0`. -/
def Obligations.FormsByMaskAndMatch : Prop :=
  ∀ u : Unit16,
    (decodeUnit u = .ok (.movRm8R8 (u.extractLsb' 3 3) (u.extractLsb' 0 3)) ↔ u &&& 0xFFC0 = 0x88C0) ∧
    (decodeUnit u = .ok (.movRm16R16 (u.extractLsb' 3 3) (u.extractLsb' 0 3)) ↔ u &&& 0xFFC0 = 0x89C0) ∧
    (decodeUnit u = .ok (.movR8Rm8 (u.extractLsb' 3 3) (u.extractLsb' 0 3)) ↔ u &&& 0xFFC0 = 0x8AC0) ∧
    (decodeUnit u = .ok (.movR16Rm16 (u.extractLsb' 3 3) (u.extractLsb' 0 3)) ↔ u &&& 0xFFC0 = 0x8BC0) ∧
    ((∃ i, decodeUnit u = .ok i) ↔ u &&& 0xFCC0 = 0x88C0)

/-- R107's note "[derived: from rules R104 to R107]": every same-width variant has exactly two units, one per
direction, and they differ. -/
def Obligations.EachVariantHasExactlyTwoUnits : Prop :=
  ∀ (s t : Register) (w : BitVec 1), regWidth s = widthOf w → regWidth t = widthOf w →
    ∃ u0 u1 : Unit16, u0 ≠ u1 ∧
      extract u0 = { opcode := 0b100010, d := 0, w := w, mode := 0b11, reg := regField s, rm := regField t } ∧
      extract u1 = { opcode := 0b100010, d := 1, w := w, mode := 0b11, reg := regField t, rm := regField s } ∧
      ∀ u : Unit16, decode16 u = .ok (.movRegReg s t) ↔ u = u0 ∨ u = u1

/-- Decoding an encoded instruction gives it back, whatever follows it, for every operand of every form; also through
the opcode table's numbering of bits. -/
def Obligations.DecodeOfEncodeIsTheInstruction : Prop :=
  ∀ i : Instr, decodeUnit (encodeUnit i) = .ok i ∧ (∀ rest : List Byte, decode (encode i ++ rest) = .ok i) ∧
    decodeTableWord 16 (encodeUnit i).toNat = some i

/-- A unit that decodes is the encoding of what it decodes to, so no two units share an instruction. -/
def Obligations.EncodeOfDecodeIsTheUnit : Prop :=
  ∀ (u : Unit16) (i : Instr), decodeUnit u = .ok i → encodeUnit i = u

/-- Running the decoded form of a unit hands over exactly the variant the dispatcher returns for that unit: the
meanings of R104 to R107 and the algorithm of R101 agree. -/
def Obligations.MeaningOfDecodedFormIsTheDispatchersVariant : Prop :=
  ∀ (u : Unit16) (i : Instr) (s : State), decodeUnit u = .ok i →
    ∃ v, decode16 u = .ok v ∧ exec i s = .next { s with out := s.out ++ [lineOf v], pos := s.pos + 2 }

/-- Words of the spec's vectors, from its encodings, decode to the instruction they stand for. -/
def Obligations.SpecWordsDecode : Prop :=
  decodeUnit 0x88C4 = .ok (.movRm8R8 0 4) ∧ decodeUnit 0x89D9 = .ok (.movRm16R16 3 1) ∧
  decodeUnit 0x8AE0 = .ok (.movR8Rm8 4 0) ∧ decodeUnit 0x8BEC = .ok (.movR16Rm16 5 4) ∧
  decode [0x89, 0xCA] = .ok (.movRm16R16 1 2) ∧ decode [0x8B, 0xCA] = .ok (.movR16Rm16 1 2) ∧
  decode [0xD9, 0x89] = .error (.decodeFault .unsupportedOpcode 0xD989) ∧
  decode [0x8B, 0x07] = .error (.decodeFault .unsupportedAddressingMode 0x8B07)

/-! ## Rendering -/

/-- R120, R121: the line of every variant, and the sixteen names, as ASCII bytes (character set and spacing: the
spec's choice D13). -/
def Obligations.RenderedLineFormat : Prop :=
  (∀ s t : Register, render (.movRegReg s t) = [0x4D, 0x4F, 0x56, 0x20] ++ regName t ++ [0x2C, 0x20] ++ regName s) ∧
  ([Register.al, .cl, .dl, .bl, .ah, .ch, .dh, .bh, .ax, .cx, .dx, .bx, .sp, .bp, .si, .di].map regName) =
    [[0x41, 0x4C], [0x43, 0x4C], [0x44, 0x4C], [0x42, 0x4C], [0x41, 0x48], [0x43, 0x48], [0x44, 0x48], [0x42, 0x48],
     [0x41, 0x58], [0x43, 0x58], [0x44, 0x58], [0x42, 0x58], [0x53, 0x50], [0x42, 0x50], [0x53, 0x49], [0x44, 0x49]]

/-- R122, "[derived: from rules R120 and R121]": every line is 10 bytes, the two names are read back from positions
4-5 and 8-9, rendering is injective, and the decodable units give exactly 128 distinct lines. -/
def Obligations.RenderedLinesAreTenBytesAndDistinct : Prop :=
  (∀ v : Variant, (render v).length = 10 ∧ ((render v).drop 4).take 2 = regName (destinationOf v) ∧
    ((render v).drop 8).take 2 = regName (sourceOf v)) ∧
  (∀ v v' : Variant, render v = render v' → v = v') ∧
  ∃ ls : List Text, ls.Nodup ∧ ls.length = 128 ∧ ∀ t : Text, t ∈ ls ↔ ∃ u v, decode16 u = .ok v ∧ render v = t

/-! ## The four instructions -/

/-- R104: bytes, operands, line and next state of `MOV r/m8, r8`, for every `reg` and `rm` and in every state. -/
def Obligations.MovRm8R8Result : Prop :=
  ∀ (reg rm : BitVec 3) (s : State), ∃ src dst : Register,
    regLookup reg.toNat .byte = .ok src ∧ regLookup rm.toNat .byte = .ok dst ∧
    encodeUnit (.movRm8R8 reg rm) &&& 0xFFC0 = 0x88C0 ∧
    encode (.movRm8R8 reg rm) = [0x88, BitVec.ofNat 8 (0xC0 + 8 * reg.toNat + rm.toNat)] ∧
    decode (encode (.movRm8R8 reg rm)) = .ok (.movRm8R8 reg rm) ∧
    exec (.movRm8R8 reg rm) s = .next { s with
      out := s.out ++ [{ variant := .movRegReg src dst
                         text := ascii ['M', 'O', 'V', ' '] ++ regName dst ++ ascii [',', ' '] ++ regName src }]
      pos := s.pos + 2 }

/-- R105: bytes, operands, line and next state of `MOV r/m16, r16`, for every `reg` and `rm` and in every state. -/
def Obligations.MovRm16R16Result : Prop :=
  ∀ (reg rm : BitVec 3) (s : State), ∃ src dst : Register,
    regLookup reg.toNat .word = .ok src ∧ regLookup rm.toNat .word = .ok dst ∧
    encodeUnit (.movRm16R16 reg rm) &&& 0xFFC0 = 0x89C0 ∧
    encode (.movRm16R16 reg rm) = [0x89, BitVec.ofNat 8 (0xC0 + 8 * reg.toNat + rm.toNat)] ∧
    decode (encode (.movRm16R16 reg rm)) = .ok (.movRm16R16 reg rm) ∧
    exec (.movRm16R16 reg rm) s = .next { s with
      out := s.out ++ [{ variant := .movRegReg src dst
                         text := ascii ['M', 'O', 'V', ' '] ++ regName dst ++ ascii [',', ' '] ++ regName src }]
      pos := s.pos + 2 }

/-- R106: bytes, operands, line and next state of `MOV r8, r/m8`, for every `reg` and `rm` and in every state. -/
def Obligations.MovR8Rm8Result : Prop :=
  ∀ (reg rm : BitVec 3) (s : State), ∃ src dst : Register,
    regLookup rm.toNat .byte = .ok src ∧ regLookup reg.toNat .byte = .ok dst ∧
    encodeUnit (.movR8Rm8 reg rm) &&& 0xFFC0 = 0x8AC0 ∧
    encode (.movR8Rm8 reg rm) = [0x8A, BitVec.ofNat 8 (0xC0 + 8 * reg.toNat + rm.toNat)] ∧
    decode (encode (.movR8Rm8 reg rm)) = .ok (.movR8Rm8 reg rm) ∧
    exec (.movR8Rm8 reg rm) s = .next { s with
      out := s.out ++ [{ variant := .movRegReg src dst
                         text := ascii ['M', 'O', 'V', ' '] ++ regName dst ++ ascii [',', ' '] ++ regName src }]
      pos := s.pos + 2 }

/-- R107: bytes, operands, line and next state of `MOV r16, r/m16`, for every `reg` and `rm` and in every state. -/
def Obligations.MovR16Rm16Result : Prop :=
  ∀ (reg rm : BitVec 3) (s : State), ∃ src dst : Register,
    regLookup rm.toNat .word = .ok src ∧ regLookup reg.toNat .word = .ok dst ∧
    encodeUnit (.movR16Rm16 reg rm) &&& 0xFFC0 = 0x8BC0 ∧
    encode (.movR16Rm16 reg rm) = [0x8B, BitVec.ofNat 8 (0xC0 + 8 * reg.toNat + rm.toNat)] ∧
    decode (encode (.movR16Rm16 reg rm)) = .ok (.movR16Rm16 reg rm) ∧
    exec (.movR16Rm16 reg rm) s = .next { s with
      out := s.out ++ [{ variant := .movRegReg src dst
                         text := ascii ['M', 'O', 'V', ' '] ++ regName dst ++ ascii [',', ' '] ++ regName src }]
      pos := s.pos + 2 }

/-- The frame of the four forms: STATUS and the fault record are unchanged, every byte of the stream reads as before,
no earlier line is touched and one is added. `pos` may change. -/
def Obligations.FrameOfTheMovForms : Prop :=
  ∀ (i : Instr) (s t : State), exec i s = .next t →
    t.status = s.status ∧ t.cause = s.cause ∧ t.faultUnit = s.faultUnit ∧ t.faultPos = s.faultPos ∧
    (∀ a : Nat, t.stream.readByte a = s.stream.readByte a) ∧ t.stream.size = s.stream.size ∧
    t.out.length = s.out.length + 1 ∧ ∀ k, k < s.out.length → t.out[k]? = s.out[k]?

/-! ## The byte stream -/

/-- R31: what a pull answers, by where `pos` lies against the stream's length; a source that is no stream is refused
(the spec's choices D2 and D20). -/
def Obligations.PullAnswersTheStream : Prop :=
  (∀ (m : Memory) (pos : Nat), m.isStream = true →
    (pos + 2 ≤ m.size → ∃ b0 b1, m.readByte pos = some b0 ∧ m.readByte (pos + 1) = some b1 ∧ m.pull pos = [b0, b1]) ∧
    (pos + 1 = m.size → ∃ b, m.readByte pos = some b ∧ m.pull pos = [b]) ∧
    (m.size ≤ pos → m.pull pos = [])) ∧
  (∀ (bs : List Byte) (pos : Nat), (Memory.ofBytes bs).pull pos = (bs.drop pos).take 2) ∧
  ∀ s : State, s.status = .run → s.stream.isStream = false → step s = .refused .sourceNotAStream

/-- R32: `MemRead` inside the stream gives the bytes in stream order, and a pull is a `MemRead` of what is left, at
most two bytes. -/
def Obligations.MemReadInStreamOrder : Prop :=
  (∀ (m : Memory) (addr n : Nat), m.isStream = true → addr + n ≤ m.size →
    (m.memRead addr n).length = n ∧ ∀ k, k < n → (m.memRead addr n)[k]? = m.readByte (addr + k)) ∧
  ∀ (m : Memory) (pos : Nat), m.isStream = true →
    (pos < m.size → m.pull pos = m.memRead pos (min 2 (m.size - pos))) ∧ (m.size ≤ pos → m.pull pos = [])

/-- R34: the first byte is the more significant one, and which byte carries which field (the latter "[derived: from
rule R34 and 30_encoding.md rule R51]"). -/
def Obligations.UnitIsBigEndian : Prop :=
  ∀ b0 b1 : Byte,
    (joinBytes b0 b1).toNat = b0.toNat * 256 + b1.toNat ∧
    (extract (joinBytes b0 b1)).opcode = b0.extractLsb' 2 6 ∧ (extract (joinBytes b0 b1)).d = b0.extractLsb' 1 1 ∧
    (extract (joinBytes b0 b1)).w = b0.extractLsb' 0 1 ∧ (extract (joinBytes b0 b1)).mode = b1.extractLsb' 6 2 ∧
    (extract (joinBytes b0 b1)).reg = b1.extractLsb' 3 3 ∧ (extract (joinBytes b0 b1)).rm = b1.extractLsb' 0 3 ∧
    bytesOfUnit (joinBytes b0 b1) = [b0, b1]

/-! ## The step -/

/-- When the two bytes pulled at `pos` decode to `i`, the step is `exec i`, with nothing added around it. -/
def Obligations.StepRunsTheDecodedInstruction : Prop :=
  ∀ (s : State) (b0 b1 : Byte) (i : Instr), s.status = .run → s.stream.isStream = true →
    s.stream.readByte s.pos = some b0 → s.stream.readByte (s.pos + 1) = some b1 →
    decodeUnit (joinBytes b0 b1) = .ok i → step s = exec i s

/-- R131: a full unit that decodes emits its line and advances `pos` by 2; STATUS stays RUN. -/
def Obligations.StepEmitsADecodedUnit : Prop :=
  ∀ (s : State) (b0 b1 : Byte) (v : Variant), s.status = .run → s.stream.isStream = true →
    s.stream.pull s.pos = [b0, b1] → decode16 (joinBytes b0 b1) = .ok v →
    step s = .next { s with
      out := s.out ++ [{ variant := v, text := render v }], pos := s.pos + 2, status := .run }

/-- R132: a full unit that faults enters the fault with the unit and `pos`; nothing is emitted and `pos` stays. -/
def Obligations.StepFaultsOnAnUndecodableUnit : Prop :=
  ∀ (s : State) (b0 b1 : Byte) (f : DecodeFault), s.status = .run → s.stream.isStream = true →
    s.stream.pull s.pos = [b0, b1] → decode16 (joinBytes b0 b1) = .error f →
    step s = .next { s with
      status := .fault, cause := some f, faultUnit := joinBytes b0 b1, faultPos := s.pos }

/-- R133: an empty pull ends the run cleanly; in a state the block can be in, it means `pos = L` with `L` even. -/
def Obligations.StepEndsTheRunOnAnEmptyPull : Prop :=
  (∀ s : State, s.status = .run → s.stream.isStream = true → s.stream.pull s.pos = [] →
    step s = .next { s with status := .done }) ∧
  (∀ s : State, s.stream.isStream = true → (s.stream.pull s.pos = [] ↔ s.stream.size ≤ s.pos)) ∧
  ∀ s : State, s.Inv → s.stream.pull s.pos = [] → s.pos = s.stream.size ∧ s.stream.size % 2 = 0

/-- R134: a one-byte pull faults as truncated with the byte in FAULT_UNIT[15:8], whatever the byte is; in a state the
block can be in, it means `pos = L - 1` with `L` odd (name and content of the fault: the spec's choices D8, D21). -/
def Obligations.StepFaultsOnATruncatedUnit : Prop :=
  (∀ (s : State) (b : Byte), s.status = .run → s.stream.isStream = true → s.stream.pull s.pos = [b] →
    step s = .next { s with
      status := .fault, cause := some .truncatedInstruction, faultUnit := BitVec.ofNat 16 (b.toNat * 256)
      faultPos := s.pos }) ∧
  faultCode .truncatedInstruction = 4 ∧
  ∀ (s : State) (b : Byte), s.Inv → s.stream.pull s.pos = [b] → s.pos + 1 = s.stream.size ∧ s.stream.size % 2 = 1

/-- R135: after the end no number of steps changes anything, and reset returns the block to RUN (the spec's choice
D6). -/
def Obligations.EndedBlockNeverChanges : Prop :=
  (∀ (s : State) (k : Nat), s.ended → Sys2Proof.core.run k s = .next s) ∧ ∀ s : State, s.applyReset.status = .run

/-- A step refuses in exactly one case, RUN with cells that are no stream (D20), and the model never faults. -/
def Obligations.StepRefusesOnlyABrokenSource : Prop :=
  ∀ s : State,
    (step s = .refused .sourceNotAStream ↔ s.status = .run ∧ s.stream.isStream = false) ∧
    (s.stream.isStream = true → ∃ t, step s = .next t)

/-- R33, R42: no step changes a byte of the stream. -/
def Obligations.StepNeverWritesTheStream : Prop :=
  ∀ s t : State, step s = .next t → t.stream = s.stream ∧ ∀ a : Nat, t.stream.readByte a = s.stream.readByte a

/-- R43: a step depends on no byte of the stream but the two at `pos`: with any other stream that agrees there, it
does the same and leaves that other stream. -/
def Obligations.StepDependsOnlyOnTheUnitAtPos : Prop :=
  ∀ (s : State) (m : Memory), s.stream.isStream = true → m.isStream = true →
    m.readByte s.pos = s.stream.readByte s.pos → m.readByte (s.pos + 1) = s.stream.readByte (s.pos + 1) →
    ∃ t, step s = .next t ∧ step { s with stream := m } = .next { t with stream := m }

/-- An instruction placed where the next step fetches is the one that step runs, in every state the block can be in.
The placing is the host's (log entry 3). -/
def Obligations.PlacedWordIsTheNextInstruction : Prop :=
  ∀ (s : State) (nbits w : Nat) (i : Instr), s.Inv → decodeTableWord nbits w = some i →
    step (s.withFetchWord nbits w) = exec i (s.withFetchWord nbits w)

/-! ## Faults -/

/-- R157: fault entry writes CAUSE, FAULT_UNIT, FAULT_POS and STATUS, and nothing else (the spec's choices D5, D8). -/
def Obligations.FaultEntryWritesTheRecord : Prop :=
  ∀ (s : State) (f : DecodeFault) (info : Unit16),
    (s.takeFault f info).hostView =
      { status := 2, cause := faultCode f, faultUnit := info, faultPos := s.pos, pos := s.pos } ∧
    (s.takeFault f info).out = s.out ∧ (s.takeFault f info).stream = s.stream ∧
    offendingOpcode (s.takeFault f info) = (extract info).opcode ∧
    offendingMode (s.takeFault f info) = (extract info).mode

/-- The codes of CAUSE and STATUS that the host reads (the spec's choices D6, D7). -/
def Obligations.CauseAndStatusCodes : Prop :=
  causeCode none = 0 ∧ causeCode (some .unsupportedOpcode) = 1 ∧ causeCode (some .unsupportedAddressingMode) = 2 ∧
  causeCode (some .malformedFieldValue) = 3 ∧ causeCode (some .truncatedInstruction) = 4 ∧
  statusCode .run = 0 ∧ statusCode .done = 1 ∧ statusCode .fault = 2 ∧ ∀ st : Status, statusCode st ≠ 3

/-- R154's and R156's order: no byte is no fault; a lone byte is a truncation whatever its bits; an unknown opcode is
reported before any mode. -/
def Obligations.FaultPriority : Prop :=
  decode [] = .error .endOfStream ∧
  (∀ b : Byte, ∃ u, decode [b] = .error (.decodeFault .truncatedInstruction u) ∧
    u.extractLsb' 8 8 = b ∧ u.extractLsb' 0 8 = 0) ∧
  ∀ b0 b1 : Byte,
    (b0.extractLsb' 2 6 ≠ 0b100010 → decode [b0, b1] = .error (.decodeFault .unsupportedOpcode (b0 ++ b1))) ∧
    (b0.extractLsb' 2 6 = 0b100010 → b1.extractLsb' 6 2 ≠ 0b11 →
      decode [b0, b1] = .error (.decodeFault .unsupportedAddressingMode (b0 ++ b1)))

/-- R158: when a run from reset is in FAULT, every unit before the faulting one has its line, no other line exists,
and no step ever withdraws a line. -/
def Obligations.FaultsArePrecise : Prop :=
  (∀ (bs : List Byte) (n : Nat) (t : State), ReachedFrom bs n t → t.status = .fault →
    t.faultPos = 2 * t.out.length ∧ t.pos = t.faultPos ∧
    List.Forall₂ lineDecodes ((unitsOf bs).take (t.faultPos / 2)) t.out) ∧
  ∀ s t : State, step s = .next t → s.out <+: t.out

/-! ## Reset -/

/-- R21, R180: what reset leaves, from any state; it is the only way out of DONE and FAULT, and nothing of the earlier
run survives it but the stream, which is the host's (the spec's choice D14). The empty stream of `State.reset` (log
entry 1) is not claimed. -/
def Obligations.ResetValues : Prop :=
  (State.reset.pos = 0 ∧ State.reset.status = .run ∧ State.reset.cause = none ∧ State.reset.faultUnit = 0 ∧
    State.reset.faultPos = 0 ∧ State.reset.out = []) ∧
  (∀ s : State, s.applyReset.pos = 0 ∧ s.applyReset.status = .run ∧ s.applyReset.cause = none ∧
    s.applyReset.faultUnit = 0 ∧ s.applyReset.faultPos = 0 ∧ s.applyReset.out = []) ∧
  (∀ s t : State, s.stream = t.stream → s.applyReset = t.applyReset) ∧
  ∀ s t : State, s.ended → step s = .next t → t.status = s.status

/-! ## Invariant and runs -/

/-- The invariant holds at reset, at every launch, and after a reset in any state whose stream is one. -/
def Obligations.InvariantHoldsAtResetAndLaunch : Prop :=
  State.reset.Inv ∧ (∀ bs : List Byte, (State.launch bs).Inv) ∧
  ∀ s : State, s.stream.isStream = true → s.applyReset.Inv

/-- Every step keeps the invariant. -/
def Obligations.StepKeepsTheInvariant : Prop :=
  ∀ s t : State, s.Inv → step s = .next t → t.Inv

/-- R137, "[derived: from rules R130 to R135]": the result of a run from reset, in the three cases. `vs` are the
decodings of the units before the end. In each case the state after `k` steps is still in RUN for every `k` before the
last step. -/
def Obligations.RunOutcome : Prop :=
  ∀ (bs : List Byte) (vs : List Variant),
    (∀ (u : Unit16) (f : DecodeFault), (unitsOf bs)[vs.length]? = some u →
      List.Forall₂ (fun u v => decode16 u = .ok v) ((unitsOf bs).take vs.length) vs → decode16 u = .error f →
      ReachedFrom bs (vs.length + 1)
        { stream := Memory.ofBytes bs, pos := 2 * vs.length, status := .fault, cause := some f, faultUnit := u
          faultPos := 2 * vs.length, out := vs.map lineOf } ∧
      ∀ k, k ≤ vs.length → ∃ t, ReachedFrom bs k t ∧ t.status = .run) ∧
    (bs.length % 2 = 0 → List.Forall₂ (fun u v => decode16 u = .ok v) (unitsOf bs) vs →
      ReachedFrom bs (bs.length / 2 + 1)
        { stream := Memory.ofBytes bs, pos := bs.length, status := .done, cause := none, faultUnit := 0
          faultPos := 0, out := vs.map lineOf } ∧
      ∀ k, k ≤ bs.length / 2 → ∃ t, ReachedFrom bs k t ∧ t.status = .run) ∧
    (∀ (front : List Byte) (b : Byte), bs = front ++ [b] → bs.length % 2 = 1 →
      List.Forall₂ (fun u v => decode16 u = .ok v) (unitsOf bs) vs →
      ReachedFrom bs (bs.length / 2 + 1)
        { stream := Memory.ofBytes bs, pos := bs.length - 1, status := .fault, cause := some .truncatedInstruction
          faultUnit := BitVec.ofNat 16 (b.toNat * 256), faultPos := bs.length - 1, out := vs.map lineOf } ∧
      ∀ k, k ≤ bs.length / 2 → ∃ t, ReachedFrom bs k t ∧ t.status = .run)

/-- The step bound of R137 and R186, from any position of any stream: the run ends within `floor((L - pos) / 2) + 1`
steps; from reset that is `floor(L / 2) + 1`. -/
def Obligations.RunEndsWithinTheStepBound : Prop :=
  ∀ s : State, s.stream.isStream = true →
    ∃ k t, k ≤ (s.stream.size - s.pos) / 2 + 1 ∧ Sys2Proof.core.run k s = .next t ∧ t.ended

/-- R184, "[derived: from 44_decode_loop.md rule R137 and 30_encoding.md rule R58]": a stream ends DONE exactly when
its length is even and every unit is a register-direct MOV; at any other unit the run stops, so nothing after it is
ever decoded. -/
def Obligations.CleanEndIffEveryUnitIsAMov : Prop :=
  ∀ bs : List Byte,
    ((∃ n t, ReachedFrom bs n t ∧ t.status = .done) ↔
      bs.length % 2 = 0 ∧ ∀ u ∈ unitsOf bs, u &&& 0xFCC0 = 0x88C0) ∧
    ∀ (k : Nat) (u : Unit16), (unitsOf bs)[k]? = some u → u &&& 0xFCC0 ≠ 0x88C0 →
      ∀ (n : Nat) (t : State), ReachedFrom bs n t → t.pos ≤ 2 * k ∧ t.out.length ≤ k

/-- R40: the k-th line of a run is the decoding of the unit at offset 2k, so lines come in input order. -/
def Obligations.LinesAreInInputOrder : Prop :=
  ∀ (bs : List Byte) (n : Nat) (t : State), ReachedFrom bs n t →
    t.pos = 2 * t.out.length ∧
    ∀ (k : Nat) (e : Emission), t.out[k]? = some e →
      ∃ b0 b1, bs[2 * k]? = some b0 ∧ bs[2 * k + 1]? = some b1 ∧ decode16 (joinBytes b0 b1) = .ok e.variant ∧
        e.text = render e.variant

/-- The lines of a stream whose run ends DONE come first in the lines of every longer stream, whose run also ends. -/
def Obligations.LinesOfAStreamComeFirstInItsExtension : Prop :=
  ∀ (bs cs : List Byte) (n : Nat) (s : State), ReachedFrom bs n s → s.status = .done →
    ∃ k t, ReachedFrom (bs ++ cs) k t ∧ t.ended ∧ s.out <+: t.out

/-- A stream of decodable units entered one byte late faults at offset 0 (program P7's "[derived: from rule R58]"): on
its first two bytes with an unsupported opcode, or, when only one byte is left, as truncated. -/
def Obligations.StreamEnteredOneByteLateFaultsAtOnce : Prop :=
  ∀ (b : Byte) (bs : List Byte), bs.length % 2 = 1 → (∀ u ∈ unitsOf (b :: bs), u &&& 0xFCC0 = 0x88C0) →
    ∃ t, ReachedFrom bs 1 t ∧ t.status = .fault ∧ t.faultPos = 0 ∧ t.out = [] ∧
      t.cause = some (if bs.length = 1 then .truncatedInstruction else .unsupportedOpcode)

/-! ## Host-side views -/

/-- R14's binary form of a variant (tag, destination, source; the tag's width is log entry 11) and R122's 80-bit line,
whose byte order is the model's choice (log entry 10), lose nothing. -/
def Obligations.BinaryFormsLoseNothing : Prop :=
  (∀ s t : Register, variantCode (.movRegReg s t) = { tag := 0, destination := regId t, source := regId s }) ∧
  (∀ v v' : Variant, variantCode v = variantCode v' → v = v') ∧
  ∀ (v : Variant) (i : Nat), i < 10 → (render v)[i]? = some ((packText (render v)).extractLsb' (8 * (9 - i)) 8)

/-- A position counter of `POS_W` bits shows `pos` throughout a run on a stream shorter than `2^POS_W` bytes (R16, the
spec's choice D4). -/
def Obligations.PositionCounterAgreesOnShortStreams : Prop :=
  ∀ (c : Config) (bs : List Byte) (n : Nat) (t : State), bs.length < 2 ^ c.posW → ReachedFrom bs n t →
    (t.posCounter c).toNat = t.pos

/-- R125: the sink appends its terminator, whatever it is, to each line; a faulting or empty pull adds no byte. -/
def Obligations.SinkAppendsItsTerminator : Prop :=
  ∀ (c : Config) (s : State),
    (∀ v : Variant, (s.emit v).sinkBytes c = s.sinkBytes c ++ (render v ++ c.lineTerminator)) ∧
    (∀ r : Rejection, (s.reject r).sinkBytes c = s.sinkBytes c) ∧
    (Config.lineTerminator { posW := c.posW } = [0x0A])
end

