-- ==== Sys2Proof/Laws/Decode.lean ====
section
/-! SUPPORT. The Register Table and the decoder's outcomes, one lemma per function. -/

namespace Sys2Proof.Machine

/-- On a 3-bit field the checked lookup is the table. -/
@[simp] theorem regLookup_toNat (f : BitVec 3) (w : Width) : regLookup f.toNat w = .ok (registerOf f w) := by
  have h : f.toNat < 8 := f.isLt
  simp [regLookup, registerOf, h]

/-- The width of a looked-up register is the width asked for. -/
@[simp] theorem regWidth_registerOf (f : BitVec 3) (w : Width) : regWidth (registerOf f w) = w := by
  cases w <;> revert f <;> decide

/-- The field of a looked-up register is the field looked up. -/
@[simp] theorem regField_registerOf (f : BitVec 3) (w : Width) : regField (registerOf f w) = f := by
  cases w <;> revert f <;> decide

end Sys2Proof.Machine

namespace Sys2Proof

open Sys2Proof.Machine

/-- The table of this hardware is well formed. -/
theorem opcodeTable_wf : opcodeTableWf opcodeTable = true := by decide

/-- What `decode` can answer: an instruction of the first two bytes, the end of the stream, a lone byte, or the
dispatcher's fault with the unit. -/
theorem decode_cases (bs : List Byte) :
    (bs = [] ∧ decode bs = .error .endOfStream) ∨
    (∃ b, bs = [b] ∧ decode bs = .error (.decodeFault .truncatedInstruction (truncatedUnit b))) ∨
    (∃ b0 b1 rest i, bs = b0 :: b1 :: rest ∧ decodeUnit (joinBytes b0 b1) = .ok i ∧ decode bs = .ok i) ∨
    (∃ b0 b1 rest f, bs = b0 :: b1 :: rest ∧ decodeUnit (joinBytes b0 b1) = .error f ∧
      decode bs = .error (.decodeFault f (joinBytes b0 b1))) := by
  match bs with
  | [] => exact .inl ⟨rfl, rfl⟩
  | [b] => exact .inr (.inl ⟨b, rfl, rfl⟩)
  | b0 :: b1 :: rest =>
    cases h : decodeUnit (joinBytes b0 b1) with
    | ok i => exact .inr (.inr (.inl ⟨b0, b1, rest, i, rfl, h, by simp [decode, h]⟩))
    | error f => exact .inr (.inr (.inr ⟨b0, b1, rest, f, rfl, h, by simp [decode, h]⟩))

/-- The decoder's fault on a unit is the dispatcher's. -/
theorem decodeUnit_error_iff (u : Unit16) (f : DecodeFault) : decodeUnit u = .error f ↔ decode16 u = .error f := by
  unfold decodeUnit
  cases decode16 u <;> simp

/-- A unit the decoder accepts is one the dispatcher resolves, and its form is named by its fields. -/
theorem decodeUnit_ok_iff (u : Unit16) (i : Instr) :
    decodeUnit u = .ok i ↔ (∃ v, decode16 u = .ok v) ∧ formOf (extract u) = i := by
  unfold decodeUnit
  cases decode16 u <;> simp

end Sys2Proof
end

