-- ==== Sys2Proof/Laws/Memory.lean ====
section
/-! SUPPORT. The stream as cells: reads after writes, the canonical form, and a gapless list of cells as the byte sequence it
stands for. -/

namespace Sys2Proof.Machine

/-! ## Reads and writes -/

@[simp] theorem Memory.readByte_nil (a : Nat) : Memory.readByte [] a = none := rfl

/-- A read after a write: the byte at the place written, every other place as before. -/
theorem Memory.readByte_write (m : Memory) (a : Nat) (b : Byte) (x : Nat) :
    Memory.readByte (Memory.write m a b) x = if x = a then some b else Memory.readByte m x := by
  induction m with
  | nil => simp [Memory.write, Memory.readByte]
  | cons c m ih =>
    obtain ⟨k, c⟩ := c
    simp only [Memory.write]
    split
    · simp only [Memory.readByte]
    · split
      · subst k
        simp only [Memory.readByte]
        split <;> rfl
      · simp only [Memory.readByte, ih]
        split
        · rw [if_neg (by omega)]
        · rfl

/-! ## The canonical form -/

/-- A higher lower bound is a stronger form. -/
theorem Memory.risingFrom_mono {lo lo' : Nat} (h : lo ≤ lo') {m : Memory} (hm : Memory.risingFrom lo' m = true) :
    Memory.risingFrom lo m = true := by
  cases m with
  | nil => rfl
  | cons c m =>
    simp only [Memory.risingFrom, Bool.and_eq_true, decide_eq_true_eq] at hm ⊢
    exact ⟨by omega, hm.2⟩

theorem Memory.risingFrom_write {lo : Nat} {m : Memory} {a : Nat} {b : Byte} (ha : lo ≤ a)
    (hm : Memory.risingFrom lo m = true) : Memory.risingFrom lo (Memory.write m a b) = true := by
  induction m generalizing lo with
  | nil => simp [Memory.write, Memory.risingFrom, ha]
  | cons c m ih =>
    obtain ⟨k, c⟩ := c
    simp only [Memory.risingFrom, Bool.and_eq_true, decide_eq_true_eq] at hm
    simp only [Memory.write]
    split
    · simp only [Memory.risingFrom, Bool.and_eq_true, decide_eq_true_eq]
      exact ⟨ha, by omega, hm.2⟩
    · split
      · subst k
        simp only [Memory.risingFrom, Bool.and_eq_true, decide_eq_true_eq]
        exact hm
      · simp only [Memory.risingFrom, Bool.and_eq_true, decide_eq_true_eq]
        exact ⟨hm.1, ih (by omega) hm.2⟩

/-- A write keeps the canonical form. -/
theorem Memory.wf_write {m : Memory} (hm : m.wf = true) (a : Nat) (b : Byte) :
    Memory.wf (Memory.write m a b) = true :=
  Memory.risingFrom_write (Nat.zero_le a) hm

/-- Placing bytes keeps the canonical form. -/
theorem Memory.wf_load {m : Memory} (hm : m.wf = true) (a : Nat) (bs : List Byte) :
    Memory.wf (Memory.load m a bs) = true := by
  induction bs generalizing m a with
  | nil => exact hm
  | cons b bs ih => exact ih (Memory.wf_write hm a b) (a + 1)

theorem Memory.risingFrom_of_contiguousFrom {lo : Nat} {m : Memory} (h : Memory.contiguousFrom lo m = true) :
    Memory.risingFrom lo m = true := by
  induction m generalizing lo with
  | nil => rfl
  | cons c m ih =>
    simp only [Memory.contiguousFrom, Bool.and_eq_true, beq_iff_eq] at h
    simp only [Memory.risingFrom, Bool.and_eq_true, decide_eq_true_eq]
    exact ⟨h.1.ge, h.1 ▸ ih h.2⟩

/-- A stream is in the canonical form. -/
theorem Memory.wf_of_isStream {m : Memory} (h : m.isStream = true) : m.wf = true :=
  Memory.risingFrom_of_contiguousFrom h

/-- Reset's memory is in the canonical form. -/
theorem reset_stream_wf : State.reset.stream.wf = true := rfl

/-! ## Streams and byte sequences -/

@[simp] theorem Memory.bytes_place (a : Nat) (bs : List Byte) : Memory.bytes (Memory.place a bs) = bs := by
  induction bs generalizing a with
  | nil => rfl
  | cons b bs ih => exact congrArg (b :: ·) (ih (a + 1))

@[simp] theorem Memory.bytes_ofBytes (bs : List Byte) : (Memory.ofBytes bs).bytes = bs := Memory.bytes_place 0 bs

@[simp] theorem Memory.length_bytes (m : Memory) : m.bytes.length = m.size := by
  simp [Memory.bytes, Memory.size]

@[simp] theorem Memory.size_ofBytes (bs : List Byte) : (Memory.ofBytes bs).size = bs.length := by
  rw [← Memory.length_bytes, Memory.bytes_ofBytes]

theorem Memory.contiguousFrom_place (a : Nat) (bs : List Byte) :
    Memory.contiguousFrom a (Memory.place a bs) = true := by
  induction bs generalizing a with
  | nil => rfl
  | cons b bs ih => simp [Memory.place, Memory.contiguousFrom, ih]

/-- Every byte sequence gives a stream. -/
@[simp] theorem Memory.isStream_ofBytes (bs : List Byte) : (Memory.ofBytes bs).isStream = true :=
  Memory.contiguousFrom_place 0 bs

theorem Memory.eq_place_of_contiguousFrom {a : Nat} {m : Memory} (h : Memory.contiguousFrom a m = true) :
    m = Memory.place a m.bytes := by
  induction m generalizing a with
  | nil => rfl
  | cons c m ih =>
    obtain ⟨k, c⟩ := c
    simp only [Memory.contiguousFrom, Bool.and_eq_true, beq_iff_eq] at h
    obtain ⟨rfl, h⟩ := h
    exact congrArg ((k, c) :: ·) (ih h)

/-- A stream IS the byte sequence it holds: equal streams are equal data. -/
theorem Memory.eq_ofBytes {m : Memory} (h : m.isStream = true) : m = Memory.ofBytes m.bytes :=
  Memory.eq_place_of_contiguousFrom h

theorem Memory.readByte_place (lo : Nat) (bs : List Byte) (i : Nat) :
    Memory.readByte (Memory.place lo bs) (lo + i) = bs[i]? := by
  induction bs generalizing lo i with
  | nil => rfl
  | cons b bs ih =>
    cases i with
    | zero => simp [Memory.place, Memory.readByte]
    | succ i =>
      have := ih (lo + 1) i
      simp only [Memory.place, Memory.readByte, List.getElem?_cons_succ]
      rw [if_neg (by omega), show lo + (i + 1) = lo + 1 + i by omega, this]

/-- A byte of a stream, by its offset. -/
@[simp] theorem Memory.readByte_ofBytes (bs : List Byte) (a : Nat) :
    Memory.readByte (Memory.ofBytes bs) a = bs[a]? := by
  have h := Memory.readByte_place 0 bs a
  rwa [Nat.zero_add] at h

/-- `MemRead` of a stream is a piece of its byte sequence. -/
theorem Memory.memRead_ofBytes (bs : List Byte) (a n : Nat) :
    Memory.memRead (Memory.ofBytes bs) a n = (bs.drop a).take n := by
  induction n generalizing a with
  | zero => simp [Memory.memRead]
  | succ n ih =>
    simp only [Memory.memRead, Memory.readByte_ofBytes]
    rcases lt_or_ge a bs.length with h | h
    · rw [List.getElem?_eq_getElem h, List.drop_eq_getElem_cons h, List.take_succ_cons, ← ih]
    · rw [List.getElem?_eq_none h, List.drop_eq_nil_of_le h]
      simp

/-- A write inside a stream or at its end leaves a stream. -/
theorem Memory.contiguousFrom_write {lo : Nat} {m : Memory} {a : Nat} {b : Byte} (h : Memory.contiguousFrom lo m = true)
    (hl : lo ≤ a) (hu : a ≤ lo + m.size) : Memory.contiguousFrom lo (Memory.write m a b) = true := by
  induction m generalizing lo with
  | nil =>
    simp only [Memory.size, List.length_nil] at hu
    simp [Memory.write, Memory.contiguousFrom]
    omega
  | cons c m ih =>
    obtain ⟨k, c⟩ := c
    simp only [Memory.contiguousFrom, Bool.and_eq_true, beq_iff_eq] at h
    obtain ⟨rfl, h⟩ := h
    simp only [Memory.size, List.length_cons] at hu
    simp only [Memory.write]
    rw [if_neg (by omega)]
    split
    · rename_i e
      subst e
      simp [Memory.contiguousFrom, h]
    · simp only [Memory.contiguousFrom, Bool.and_eq_true, beq_iff_eq, true_and]
      exact ih h (by omega) (by simp only [Memory.size]; omega)

/-- A write takes away no cell. -/
theorem Memory.size_le_write (m : Memory) (a : Nat) (b : Byte) : m.size ≤ Memory.size (Memory.write m a b) := by
  induction m with
  | nil => exact Nat.zero_le _
  | cons c m ih =>
    obtain ⟨k, c⟩ := c
    simp only [Memory.write]
    split
    · exact Nat.le_succ _
    · split
      · exact le_rfl
      · exact Nat.succ_le_succ ih

/-- The byte written inside a stream or at its end lies in the stream. -/
theorem Memory.lt_size_write {m : Memory} (h : m.isStream = true) {a : Nat} (ha : a ≤ m.size) (b : Byte) :
    a < Memory.size (Memory.write m a b) := by
  have e := Memory.readByte_write m a b a
  rw [if_pos rfl, Memory.eq_ofBytes (Memory.contiguousFrom_write h (Nat.zero_le a) (by omega)),
    Memory.readByte_ofBytes, List.getElem?_eq_some_iff] at e
  simpa using e.1

theorem Memory.isStream_write {m : Memory} (h : m.isStream = true) {a : Nat} (ha : a ≤ m.size) (b : Byte) :
    Memory.isStream (Memory.write m a b) = true :=
  Memory.contiguousFrom_write h (Nat.zero_le a) (by omega)

end Sys2Proof.Machine
end

