-- ==== Sys2Proof/Laws/PerInstr.lean ====
section
/-! SUPPORT. Facts about every instruction as syntax, one lemma per constructor. -/

namespace Sys2Proof.Laws.RowPattern

open Sys2Proof Sys2Proof.Machine

/-- The `match` value of an instruction's row of the table in R58; every row's mask is 0xFFC0. -/
def rowMatch : Instr → Unit16
  | .movRm8R8 _ _ => 0x88C0
  | .movRm16R16 _ _ => 0x89C0
  | .movR8Rm8 _ _ => 0x8AC0
  | .movR16Rm16 _ _ => 0x8BC0

/-- An instruction's unit is selected by its own row of the table (R58). -/
def Statement (i : Instr) : Prop := encodeUnit i &&& 0xFFC0 = rowMatch i

theorem movRm8R8 (reg rm : BitVec 3) : Statement (.movRm8R8 reg rm) := by
  revert reg rm; unfold Statement; decide

theorem movRm16R16 (reg rm : BitVec 3) : Statement (.movRm16R16 reg rm) := by
  revert reg rm; unfold Statement; decide

theorem movR8Rm8 (reg rm : BitVec 3) : Statement (.movR8Rm8 reg rm) := by
  revert reg rm; unfold Statement; decide

theorem movR16Rm16 (reg rm : BitVec 3) : Statement (.movR16Rm16 reg rm) := by
  revert reg rm; unfold Statement; decide

end Sys2Proof.Laws.RowPattern
end

