-- ==== Sys2Proof/Laws/State.lean ====
section
/-! SUPPORT. One lemma per field per update of State, so that no later proof unfolds a record update. -/

namespace Sys2Proof.Machine.State

variable (s : State) (v : Variant) (f : DecodeFault) (info : Unit16) (bs : List Byte) (nbits w : Nat)

@[simp] theorem reset_stream : State.reset.stream = [] := rfl
@[simp] theorem reset_pos : State.reset.pos = 0 := rfl
@[simp] theorem reset_status : State.reset.status = .run := rfl
@[simp] theorem reset_cause : State.reset.cause = none := rfl
@[simp] theorem reset_faultUnit : State.reset.faultUnit = 0 := rfl
@[simp] theorem reset_faultPos : State.reset.faultPos = 0 := rfl
@[simp] theorem reset_out : State.reset.out = [] := rfl

@[simp] theorem emit_stream : (s.emit v).stream = s.stream := rfl
@[simp] theorem emit_pos : (s.emit v).pos = s.pos + 2 := rfl
@[simp] theorem emit_status : (s.emit v).status = s.status := rfl
@[simp] theorem emit_cause : (s.emit v).cause = s.cause := rfl
@[simp] theorem emit_faultUnit : (s.emit v).faultUnit = s.faultUnit := rfl
@[simp] theorem emit_faultPos : (s.emit v).faultPos = s.faultPos := rfl
@[simp] theorem emit_out : (s.emit v).out = s.out ++ [{ variant := v, text := render v }] := rfl

@[simp] theorem takeFault_stream : (s.takeFault f info).stream = s.stream := rfl
@[simp] theorem takeFault_pos : (s.takeFault f info).pos = s.pos := rfl
@[simp] theorem takeFault_status : (s.takeFault f info).status = .fault := rfl
@[simp] theorem takeFault_cause : (s.takeFault f info).cause = some f := rfl
@[simp] theorem takeFault_faultUnit : (s.takeFault f info).faultUnit = info := rfl
@[simp] theorem takeFault_faultPos : (s.takeFault f info).faultPos = s.pos := rfl
@[simp] theorem takeFault_out : (s.takeFault f info).out = s.out := rfl

@[simp] theorem endRun_stream : s.endRun.stream = s.stream := rfl
@[simp] theorem endRun_pos : s.endRun.pos = s.pos := rfl
@[simp] theorem endRun_status : s.endRun.status = .done := rfl
@[simp] theorem endRun_cause : s.endRun.cause = s.cause := rfl
@[simp] theorem endRun_faultUnit : s.endRun.faultUnit = s.faultUnit := rfl
@[simp] theorem endRun_faultPos : s.endRun.faultPos = s.faultPos := rfl
@[simp] theorem endRun_out : s.endRun.out = s.out := rfl

@[simp] theorem reject_endOfStream : s.reject .endOfStream = s.endRun := rfl
@[simp] theorem reject_decodeFault : s.reject (.decodeFault f info) = s.takeFault f info := rfl

@[simp] theorem applyReset_stream : s.applyReset.stream = s.stream := rfl
@[simp] theorem applyReset_pos : s.applyReset.pos = 0 := rfl
@[simp] theorem applyReset_status : s.applyReset.status = .run := rfl
@[simp] theorem applyReset_cause : s.applyReset.cause = none := rfl
@[simp] theorem applyReset_faultUnit : s.applyReset.faultUnit = 0 := rfl
@[simp] theorem applyReset_faultPos : s.applyReset.faultPos = 0 := rfl
@[simp] theorem applyReset_out : s.applyReset.out = [] := rfl

@[simp] theorem launch_stream : (State.launch bs).stream = Memory.ofBytes bs := rfl
@[simp] theorem launch_pos : (State.launch bs).pos = 0 := rfl
@[simp] theorem launch_status : (State.launch bs).status = .run := rfl
@[simp] theorem launch_cause : (State.launch bs).cause = none := rfl
@[simp] theorem launch_faultUnit : (State.launch bs).faultUnit = 0 := rfl
@[simp] theorem launch_faultPos : (State.launch bs).faultPos = 0 := rfl
@[simp] theorem launch_out : (State.launch bs).out = [] := rfl

end Sys2Proof.Machine.State
end

