-- ==== Sys2Proof/Laws/Step.lean ====
section
/-! SUPPORT. What an instruction and a step can do, said once. -/

namespace Sys2Proof.Machine

/-- The variant each form emits. -/
def emitted : Instr → Variant
  | .movRm8R8 reg rm => .movRegReg (registerOf reg .byte) (registerOf rm .byte)
  | .movRm16R16 reg rm => .movRegReg (registerOf reg .word) (registerOf rm .word)
  | .movR8Rm8 reg rm => .movRegReg (registerOf rm .byte) (registerOf reg .byte)
  | .movR16Rm16 reg rm => .movRegReg (registerOf rm .word) (registerOf reg .word)

/-- Every instruction does one thing: it emits its variant. -/
theorem exec_eq_emit (i : Instr) (s : State) : exec i s = .next (s.emit (emitted i)) := by
  cases i <;> rfl

/-- Everything a step can do. -/
theorem step_cases (s : State) :
    (s.status ≠ .run ∧ step s = .next s) ∨
    (s.status = .run ∧ s.stream.isStream = false ∧ step s = .refused .sourceNotAStream) ∨
    (∃ i, s.status = .run ∧ s.stream.isStream = true ∧ decode s.fetch = .ok i ∧
      step s = .next (s.emit (emitted i))) ∨
    (∃ r, s.status = .run ∧ s.stream.isStream = true ∧ decode s.fetch = .error r ∧
      step s = .next (s.reject r)) := by
  unfold step
  cases hs : s.status with
  | done => exact .inl ⟨by simp, rfl⟩
  | fault => exact .inl ⟨by simp, rfl⟩
  | run =>
    cases hm : s.stream.isStream with
    | false => exact .inr (.inl ⟨rfl, rfl, by simp⟩)
    | true =>
      cases hd : decode s.fetch with
      | ok i => exact .inr (.inr (.inl ⟨i, rfl, rfl, rfl, by simp [exec_eq_emit]⟩))
      | error r => exact .inr (.inr (.inr ⟨r, rfl, rfl, rfl, by simp⟩))

end Sys2Proof.Machine
end

