-- ==== Sys2Proof/Laws/Run.lean ====
section
/-! SUPPORT. Runs of the machine: one step more, two runs joined, and the induction over a run packaged once. -/

namespace Sys2Proof.Machine

/-- A run of `k + 1` steps whose first step goes on is a run of `k` steps from where it went. -/
theorem core_run_succ (M : Host.Core) (k : Nat) (s : M.State) :
    M.run (k + 1) s = match M.step s with
      | .next t => M.run k t
      | .fault r => .fault r
      | .refused r => .refused r := by
  cases h : M.step s <;> simp [Host.Core.run, h]

theorem run_zero (s : State) : Sys2Proof.core.run 0 s = .next s := rfl

theorem run_succ_of_next {s t : State} (h : step s = .next t) (k : Nat) :
    Sys2Proof.core.run (k + 1) s = Sys2Proof.core.run k t := by
  have e := core_run_succ Sys2Proof.core k s
  rwa [show Sys2Proof.core.step s = .next t from h] at e

/-- A run that goes on for `k + 1` steps has a first step that goes on. -/
theorem run_succ_next {s t : State} {k : Nat} (h : Sys2Proof.core.run (k + 1) s = .next t) :
    ∃ u, step s = .next u ∧ Sys2Proof.core.run k u = .next t := by
  have e := core_run_succ Sys2Proof.core k s
  rw [show Sys2Proof.core.step s = step s from rfl] at e
  cases hs : step s with
  | next u => exact ⟨u, rfl, (run_succ_of_next hs k).symm.trans h⟩
  | fault r => rw [hs] at e; cases e.symm.trans h
  | refused r => rw [hs] at e; cases e.symm.trans h

/-- A run continues from where a shorter run got to. -/
theorem run_add {j : Nat} {s t : State} (h : Sys2Proof.core.run j s = .next t) (k : Nat) :
    Sys2Proof.core.run (j + k) s = Sys2Proof.core.run k t := by
  induction j generalizing s with
  | zero => cases h; rw [Nat.zero_add]
  | succ j ih =>
    obtain ⟨u, hu, hr⟩ := run_succ_next h
    rw [Nat.succ_add, run_succ_of_next hu, ih hr]

/-- What holds of a state and is kept by every step holds wherever a run gets to. -/
theorem run_keeps {P : State → Prop} (hstep : ∀ s t, P s → step s = .next t → P t) {k : Nat} {s t : State}
    (hs : P s) (h : Sys2Proof.core.run k s = .next t) : P t := by
  induction k generalizing s with
  | zero => cases h; exact hs
  | succ k ih =>
    obtain ⟨u, hu, hr⟩ := run_succ_next h
    exact ih (hstep s u hs hu) hr

end Sys2Proof.Machine
end

