-- ==== Sys2Proof/Tests/Slice0.lean ====
section
/-! SUPPORT. Small tests. Expected results are the spec's own vectors (95_test_vectors.md, named beside each) or read off its
tables by hand. The last part shows, for each statement with hypotheses, a state and operands that meet them. -/

namespace Sys2Proof.Tests

open Sys2Proof Sys2Proof.Machine

/-- The next state of an outcome, if it is one. -/
def nextOf : Host.Outcome State Fault Refusal → Option State
  | .next t => some t
  | _ => none

/-- The state after one step from reset with a stream. -/
def afterOne (bs : List Byte) : Option State := nextOf (step (State.launch bs))

/-! ## Well-formedness: an ill-formed term for each check -/

theorem test_wf_refuses_mixed_widths : (Variant.movRegReg .al .ax).wf = false := by decide
theorem test_wf_accepts_one_width : (Variant.movRegReg .al .ah).wf = true := by decide
theorem test_wf_refuses_field_eight : fieldWf 8 = false := by decide
theorem test_wf_refuses_pattern_outside_mask :
    OpcodeEntry.wf { pattern := 0x8900, mask := 0xFC00, cls := .movRegisterMemory } = false := by decide
theorem test_wf_refuses_overlapping_entries :
    opcodeTableWf [{ pattern := 0x8800, mask := 0xFC00, cls := .movRegisterMemory },
      { pattern := 0x8800, mask := 0xFF00, cls := .movRegisterMemory }] = false := by decide
theorem test_wf_accepts_the_table : opcodeTableWf opcodeTable = true := by decide
theorem test_wf_refuses_unsorted_cells : Memory.wf [(1, 0x89), (0, 0xD9)] = false := by decide
theorem test_wf_refuses_repeated_cells : Memory.wf [(0, 0x89), (0, 0xD9)] = false := by decide
theorem test_stream_refuses_a_gap : Memory.isStream [(0, 0x89), (2, 0xD9)] = false := by decide
theorem test_stream_refuses_a_late_start : Memory.isStream [(1, 0x89)] = false := by decide

/-! ## Register Table (D-REG) and rendering (S1, D-RND) -/

theorem test_lookup_rejects_eight : regLookup 8 .byte = .error .malformedFieldValue := by rfl
theorem test_lookup_four_is_not_shared : regLookup 4 .byte = .ok .ah ∧ regLookup 4 .word = .ok .sp := ⟨rfl, rfl⟩
theorem test_id_of_bp : regId .bp = 13 := by decide
theorem test_render_s1 :
    render (.movRegReg .cx .dx) = [0x4D, 0x4F, 0x56, 0x20, 0x44, 0x58, 0x2C, 0x20, 0x43, 0x58] := by decide
theorem test_render_si_di :
    render (.movRegReg .si .di) = [0x4D, 0x4F, 0x56, 0x20, 0x44, 0x49, 0x2C, 0x20, 0x53, 0x49] := by decide
theorem test_pack_s1 : packText (render (.movRegReg .cx .dx)) = 0x4D4F562044582C204358 := by decide

/-! ## Extraction (D-EXT) -/

theorem test_extract_89D9 : extract 0x89D9 =
    { opcode := 0b100010, d := 0, w := 1, mode := 0b11, reg := 0b011, rm := 0b001 } := by decide
theorem test_extract_8D89 : extract 0x8D89 =
    { opcode := 0b100011, d := 0, w := 1, mode := 0b10, reg := 0b001, rm := 0b001 } := by decide
theorem test_recompose_8D89 : recompose
    { opcode := 0b100011, d := 0, w := 1, mode := 0b10, reg := 0b001, rm := 0b001 } = 0x8D89 := by decide

/-! ## Decoding: words written out from the encoding of R51 and R54 -/

/-- `100010 0 0 11 000 100`, P2. -/
theorem test_decode_movRm8R8 : decode [0b10001000, 0b11000100] = .ok (.movRm8R8 0 4) := by rfl
/-- `100010 0 1 11 011 001`, S8. -/
theorem test_decode_movRm16R16 : decode [0b10001001, 0b11011001] = .ok (.movRm16R16 3 1) := by rfl
/-- `100010 1 0 11 100 000`, P2. -/
theorem test_decode_movR8Rm8 : decode [0b10001010, 0b11100000] = .ok (.movR8Rm8 4 0) := by rfl
/-- `100010 1 1 11 101 100`, P2. -/
theorem test_decode_movR16Rm16 : decode [0b10001011, 0b11101100] = .ok (.movR16Rm16 5 4) := by rfl
/-- The table's numbering: match 0x8AC0 with reg 4, rm 0. -/
theorem test_table_word : decodeTableWord 16 0x8AE0 = some (.movR8Rm8 4 0) := by rfl
theorem test_encode_movRm16R16 : encode (.movRm16R16 3 1) = [0x89, 0xD9] := by decide

/-- D-DSP, the neighbours of the MOV range. -/
theorem test_decode16_below : decode16 0x88BF = .error .unsupportedAddressingMode ∧
    decode16 0x87FF = .error .unsupportedOpcode := ⟨rfl, rfl⟩
theorem test_decode16_above : decode16 0x8BFF = .ok (.movRegReg .di .di) ∧
    decode16 0x8C00 = .error .unsupportedOpcode := ⟨rfl, rfl⟩
/-- D-DSP, R156: the opcode is tested before the mode. -/
theorem test_decode16_zero : decode16 0x0000 = .error .unsupportedOpcode := by rfl

/-! ## One step (S7, P2, D-SEQ) -/

theorem test_step_88C4 : (afterOne [0x88, 0xC4]).map (fun t => (t.out, t.pos)) =
    some ([{ variant := .movRegReg .al .ah, text := ascii ['M', 'O', 'V', ' ', 'A', 'H', ',', ' ', 'A', 'L'] }], 2) := by
  decide
theorem test_step_89CA : (afterOne [0x89, 0xCA]).map (fun t => (t.out, t.pos)) =
    some ([{ variant := .movRegReg .cx .dx, text := ascii ['M', 'O', 'V', ' ', 'D', 'X', ',', ' ', 'C', 'X'] }], 2) := by
  decide
theorem test_step_8AE0 : (afterOne [0x8A, 0xE0]).map (fun t => (t.out, t.pos)) =
    some ([{ variant := .movRegReg .al .ah, text := ascii ['M', 'O', 'V', ' ', 'A', 'H', ',', ' ', 'A', 'L'] }], 2) := by
  decide
theorem test_step_8BCA : (afterOne [0x8B, 0xCA]).map (fun t => (t.out, t.pos)) =
    some ([{ variant := .movRegReg .dx .cx, text := ascii ['M', 'O', 'V', ' ', 'C', 'X', ',', ' ', 'D', 'X'] }], 2) := by
  decide
theorem test_step_empty : (afterOne []).map (·.hostView) =
    some { status := 1, cause := 0, faultUnit := 0, faultPos := 0, pos := 0 } := by decide
theorem test_step_lone_byte : (afterOne [0x12]).map (·.hostView) =
    some { status := 2, cause := 4, faultUnit := 0x1200, faultPos := 0, pos := 0 } := by decide
theorem test_step_8B07 : (afterOne [0x8B, 0x07]).map (·.hostView) =
    some { status := 2, cause := 2, faultUnit := 0x8B07, faultPos := 0, pos := 0 } := by decide
theorem test_step_D989 : (afterOne [0xD9, 0x89, 0xCA]).map (·.hostView) =
    some { status := 2, cause := 1, faultUnit := 0xD989, faultPos := 0, pos := 0 } := by decide
theorem test_step_refuses_a_gap : step { State.reset with stream := [(0, 0x89), (2, 0xD9)] } =
    .refused .sourceNotAStream := by rfl
theorem test_placed_word_runs : step (State.reset.withFetchWord 16 0x89D9) =
    exec (.movRm16R16 3 1) (State.reset.withFetchWord 16 0x89D9) := by rfl
theorem test_placed_word_is_stored : (State.reset.withFetchWord 16 0x89D9).stream = [(0, 0x89), (1, 0xD9)] := by decide

/-! ## Witnesses: states and operands that meet the hypotheses of the statements -/

/-- A block in mid-stream: one unit decoded, one to go (P1 after its first step). -/
def midRun : State where
  stream    := Memory.ofBytes [0x89, 0xD9, 0x89, 0xCA]
  pos       := 2
  status    := .run
  cause     := none
  faultUnit := 0
  faultPos  := 0
  out       := [lineOf (.movRegReg .bx .cx)]

/-- A block that has faulted on the second unit of P3. -/
def midFault : State where
  stream    := Memory.ofBytes [0x89, 0xD9, 0x8B, 0x07, 0x89, 0xCA]
  pos       := 2
  status    := .fault
  cause     := some .unsupportedAddressingMode
  faultUnit := 0x8B07
  faultPos  := 2
  out       := [lineOf (.movRegReg .bx .cx)]

/-- A block at the end of a one-unit stream, before its last step. -/
def atEnd : State := { midRun with stream := Memory.ofBytes [0x89, 0xD9] }

/-- A block one byte before the end of P5's stream. -/
def atLoneByte : State := { midRun with stream := Memory.ofBytes [0x89, 0xD9, 0x89] }

theorem inv_of_one_line {s : State} {v : Variant} {u : Unit16} {us : List Unit16} (hs : s.stream.isStream = true)
    (hp : s.pos = 2) (hl : 2 ≤ s.stream.size) (ho : s.out = [lineOf v]) (hu : unitsOf s.stream.bytes = u :: us)
    (hd : decode16 u = .ok v) (hc : s.status ≠ .fault → s.cause = none ∧ s.faultUnit = 0 ∧ s.faultPos = 0)
    (hf : s.status = .fault →
      s.faultPos = s.pos ∧ ∃ f, s.cause = some f ∧ decode s.fetch = .error (.decodeFault f s.faultUnit))
    (hdone : s.status = .done → s.pos = s.stream.size) : s.Inv where
  stream_ok := hs
  pos_even := by rw [hp]
  pos_le := by omega
  out_length := by rw [ho, hp]; rfl
  out_decodes := by
    rw [ho, hu]
    exact .cons ⟨hd, rfl⟩ .nil
  record_clear := hc
  record_holds := hf
  done_at_end := hdone

/-- For the statements that ask for the invariant: PlacedWordIsTheNextInstruction, StepKeepsTheInvariant. -/
theorem witness_inv_mid_run : midRun.Inv :=
  inv_of_one_line rfl rfl (by decide) rfl rfl rfl (fun _ => ⟨rfl, rfl, rfl⟩) (fun h => nomatch h) (fun h => nomatch h)

theorem witness_inv_mid_fault : midFault.Inv :=
  inv_of_one_line rfl rfl (by decide) rfl rfl rfl (fun h => absurd rfl h) (fun _ => ⟨rfl, _, rfl, rfl⟩) (fun h => nomatch h)

theorem witness_inv_at_end : atEnd.Inv :=
  inv_of_one_line rfl rfl (by decide) rfl rfl rfl (fun _ => ⟨rfl, rfl, rfl⟩) (fun h => nomatch h) (fun h => nomatch h)

theorem witness_inv_at_lone_byte : atLoneByte.Inv :=
  inv_of_one_line rfl rfl (by decide) rfl rfl rfl (fun _ => ⟨rfl, rfl, rfl⟩) (fun h => nomatch h) (fun h => nomatch h)

/-- RegLookupFailsFastOutsideItsDomain, at both sides of the boundary. -/
theorem witness_lookup_domain : 8 ≤ 8 ∧ 7 < 8 ∧ regLookup 8 .word = .error .malformedFieldValue ∧
    regLookup 7 .word = .ok .di := ⟨by decide, by decide, rfl, rfl⟩

/-- RegisterRoundTrip, at a field that the two columns name differently. -/
theorem witness_round_trip : regLookup (4 : BitVec 3).toNat .word = .ok .sp := by rfl

/-- OpcodeTableHasTheOneMovEntry: the entry, with a record it selects and one it does not. -/
theorem witness_opcode_entry : ∀ t ∈ opcodeTable, entrySelects t (extract 0x8800) = true ∧
    entrySelects t (extract 0x8C00) = false := by decide

/-- WellFormedTableSelectsAtMostOneEntry, for a table of two entries. -/
theorem witness_two_entry_table : opcodeTableWf [{ pattern := 0x8800, mask := 0xFC00, cls := .movRegisterMemory },
    { pattern := 0x8C00, mask := 0xFC00, cls := .movRegisterMemory }] = true := by decide

/-- DispatcherChecksInOrder: a record for each clause. -/
theorem witness_dispatch_clauses :
    (extract 0x8CC0).opcode ≠ 0b100010 ∧
    ((extract 0x88BF).opcode = 0b100010 ∧ (extract 0x88BF).mode ≠ 0b11) ∧
    ((extract 0x88C0).opcode = 0b100010 ∧ (extract 0x88C0).mode = 0b11) := by decide

/-- DirectionBitSwapsOperands, OperandsShareOneWidth: a unit for each direction (S7). -/
theorem witness_direction : (dispatch (extract 0x89CA) = .ok (.movRegReg .cx .dx) ∧ (extract 0x89CA).d = 0) ∧
    (dispatch (extract 0x8BCA) = .ok (.movRegReg .dx .cx) ∧ (extract 0x8BCA).d = 1) := ⟨⟨rfl, rfl⟩, rfl, rfl⟩

/-- EachVariantHasExactlyTwoUnits: a variant and its width, and its two units (P2). -/
theorem witness_two_units : regWidth .al = widthOf 0 ∧ regWidth .ah = widthOf 0 ∧
    decode16 0x88C4 = .ok (.movRegReg .al .ah) ∧ decode16 0x8AE0 = .ok (.movRegReg .al .ah) := ⟨rfl, rfl, rfl, rfl⟩

/-- EncodeOfDecodeIsTheUnit, MeaningOfDecodedFormIsTheDispatchersVariant. -/
theorem witness_decoded_unit : decodeUnit 0x8BFF = .ok (.movR16Rm16 7 7) := by rfl

/-- FrameOfTheMovForms: each form runs. -/
theorem witness_forms_run : exec (.movRm8R8 7 0) midRun = .next (midRun.emit (.movRegReg .bh .al)) ∧
    exec (.movRm16R16 7 0) midRun = .next (midRun.emit (.movRegReg .di .ax)) ∧
    exec (.movR8Rm8 7 0) midRun = .next (midRun.emit (.movRegReg .al .bh)) ∧
    exec (.movR16Rm16 7 0) midRun = .next (midRun.emit (.movRegReg .ax .di)) := ⟨rfl, rfl, rfl, rfl⟩

/-- PullAnswersTheStream: each clause at the boundary of a three-byte stream, and a source that is no stream. -/
theorem witness_pull_clauses : Memory.isStream (Memory.ofBytes [0x89, 0xD9, 0x89]) = true ∧
    (1 + 2 ≤ Memory.size (Memory.ofBytes [0x89, 0xD9, 0x89]) ∧
      Memory.pull (Memory.ofBytes [0x89, 0xD9, 0x89]) 1 = [0xD9, 0x89]) ∧
    (2 + 1 = Memory.size (Memory.ofBytes [0x89, 0xD9, 0x89]) ∧
      Memory.pull (Memory.ofBytes [0x89, 0xD9, 0x89]) 2 = [0x89]) ∧
    (Memory.size (Memory.ofBytes [0x89, 0xD9, 0x89]) ≤ 3 ∧ Memory.pull (Memory.ofBytes [0x89, 0xD9, 0x89]) 3 = []) := by
  decide

theorem witness_broken_source : State.reset.status = .run ∧ Memory.isStream [(0, 0x89), (2, 0xD9)] = false := ⟨rfl, rfl⟩

/-- MemReadInStreamOrder: a read that ends at the end of the stream, and a pull of the last byte and beyond it. -/
theorem witness_mem_read : Memory.isStream (Memory.ofBytes [0x89, 0xD9]) = true ∧
    1 + 1 ≤ Memory.size (Memory.ofBytes [0x89, 0xD9]) ∧ Memory.memRead (Memory.ofBytes [0x89, 0xD9]) 1 1 = [0xD9] ∧
    1 < Memory.size (Memory.ofBytes [0x89, 0xD9]) ∧ Memory.size (Memory.ofBytes [0x89, 0xD9]) ≤ 2 := by decide

/-- StepRunsTheDecodedInstruction, StepEmitsADecodedUnit. -/
theorem witness_step_decoded : midRun.status = .run ∧ midRun.stream.isStream = true ∧
    midRun.stream.readByte midRun.pos = some 0x89 ∧ midRun.stream.readByte (midRun.pos + 1) = some 0xCA ∧
    midRun.stream.pull midRun.pos = [0x89, 0xCA] ∧ decodeUnit (joinBytes 0x89 0xCA) = .ok (.movRm16R16 1 2) ∧
    decode16 (joinBytes 0x89 0xCA) = .ok (.movRegReg .cx .dx) := ⟨rfl, rfl, rfl, rfl, rfl, rfl, rfl⟩

/-- P3 before its second step. -/
def beforeFault : State := { midRun with stream := midFault.stream }

/-- StepFaultsOnAnUndecodableUnit. -/
theorem witness_step_fault : beforeFault.status = .run ∧ beforeFault.stream.isStream = true ∧
    beforeFault.stream.pull beforeFault.pos = [0x8B, 0x07] ∧
    decode16 (joinBytes 0x8B 0x07) = .error .unsupportedAddressingMode := ⟨rfl, rfl, rfl, rfl⟩

/-- StepEndsTheRunOnAnEmptyPull, with `witness_inv_at_end`. -/
theorem witness_step_end : atEnd.status = .run ∧ atEnd.stream.isStream = true ∧ atEnd.stream.pull atEnd.pos = [] :=
  ⟨rfl, rfl, rfl⟩

/-- StepFaultsOnATruncatedUnit, with `witness_inv_at_lone_byte`. -/
theorem witness_step_truncated : atLoneByte.status = .run ∧ atLoneByte.stream.isStream = true ∧
    atLoneByte.stream.pull atLoneByte.pos = [0x89] := ⟨rfl, rfl, rfl⟩

/-- EndedBlockNeverChanges, ResetValues: an ended block, and its step. -/
theorem witness_ended : midFault.ended ∧ step midFault = .next midFault := ⟨nofun, rfl⟩

/-- ResetValues: two different states with one stream. -/
theorem witness_same_stream : midRun.stream = midRun.endRun.stream ∧ midRun ≠ midRun.endRun := ⟨rfl, by decide⟩

/-- StepRefusesOnlyABrokenSource, StepNeverWritesTheStream, FaultsArePrecise, StepKeepsTheInvariant: a step that goes on. -/
theorem witness_step_next : step midRun = .next (midRun.emit (.movRegReg .cx .dx)) := by rfl

/-- StepDependsOnlyOnTheUnitAtPos: another stream that agrees at `pos` only. -/
theorem witness_other_stream : Memory.isStream (Memory.ofBytes [0x00, 0x00, 0x89, 0xCA, 0x90]) = true ∧
    Memory.readByte (Memory.ofBytes [0x00, 0x00, 0x89, 0xCA, 0x90]) 2 = midRun.stream.readByte 2 ∧
    Memory.readByte (Memory.ofBytes [0x00, 0x00, 0x89, 0xCA, 0x90]) 3 = midRun.stream.readByte 3 := by decide

/-- PlacedWordIsTheNextInstruction, with `witness_inv_mid_fault`. -/
theorem witness_placed_word : decodeTableWord 16 0x8BCA = some (.movR16Rm16 1 2) := by rfl

/-- FaultPriority: bytes for each clause. -/
theorem witness_fault_priority : (0x00 : Byte).extractLsb' 2 6 ≠ 0b100010 ∧
    ((0x8B : Byte).extractLsb' 2 6 = 0b100010 ∧ (0x07 : Byte).extractLsb' 6 2 ≠ 0b11) := by decide

/-- FaultsArePrecise, LinesAreInInputOrder: P3 after its two steps. -/
theorem witness_reached_fault : ReachedFrom [0x89, 0xD9, 0x8B, 0x07, 0x89, 0xCA] 2 midFault ∧ midFault.status = .fault ∧
    midFault.out[0]? = some (lineOf (.movRegReg .bx .cx)) := ⟨rfl, rfl, rfl⟩

/-- RunOutcome: a stream and decodings for each of the three cases. -/
theorem witness_run_outcome_fault : (unitsOf [0x89, 0xD9, 0x8B, 0x07])[1]? = some 0x8B07 ∧
    List.Forall₂ (fun u v => decode16 u = .ok v) ((unitsOf [0x89, 0xD9, 0x8B, 0x07]).take 1) [.movRegReg .bx .cx] ∧
    decode16 0x8B07 = .error .unsupportedAddressingMode := ⟨rfl, .cons rfl .nil, rfl⟩
theorem witness_run_outcome_done : ([0x89, 0xD9] : List Byte).length % 2 = 0 ∧
    List.Forall₂ (fun u v => decode16 u = .ok v) (unitsOf [0x89, 0xD9]) [.movRegReg .bx .cx] := ⟨rfl, .cons rfl .nil⟩
theorem witness_run_outcome_truncated : ([0x89, 0xD9, 0x89] : List Byte) = [0x89, 0xD9] ++ [0x89] ∧
    ([0x89, 0xD9, 0x89] : List Byte).length % 2 = 1 ∧
    List.Forall₂ (fun u v => decode16 u = .ok v) (unitsOf [0x89, 0xD9, 0x89]) [.movRegReg .bx .cx] :=
  ⟨rfl, rfl, .cons rfl .nil⟩

/-- RunEndsWithinTheStepBound, InvariantHoldsAtResetAndLaunch: a state whose stream is one. -/
theorem witness_stream_state : midFault.stream.isStream = true := by rfl

/-- CleanEndIffEveryUnitIsAMov: a clean end, and a unit that is no MOV with a run that stops at it. -/
theorem witness_clean_end : ∃ n t, ReachedFrom [0x89, 0xD9] n t ∧ t.status = .done := ⟨2, _, rfl, rfl⟩
theorem witness_not_a_mov : (unitsOf [0x89, 0xD9, 0x8B, 0x07, 0x89, 0xCA])[1]? = some 0x8B07 ∧
    (0x8B07 : Unit16) &&& 0xFCC0 ≠ 0x88C0 ∧ ReachedFrom [0x89, 0xD9, 0x8B, 0x07, 0x89, 0xCA] 2 midFault :=
  ⟨rfl, by decide, rfl⟩

/-- LinesOfAStreamComeFirstInItsExtension: P1 as an extension of its first unit. -/
theorem witness_extension : ReachedFrom [0x89, 0xD9] 2 atEnd.endRun ∧ atEnd.endRun.status = .done := ⟨rfl, rfl⟩

theorem test_units_of_p1 : unitsOf [0x89, 0xD9, 0x89, 0xCA] = [0x89D9, 0x89CA] := by rfl
theorem test_units_of_one : unitsOf [0x89, 0xD9] = [0x89D9] := by rfl

/-- StreamEnteredOneByteLateFaultsAtOnce: P1 and a one-unit stream, each without its first byte (P7). -/
theorem witness_one_byte_late : ([0xD9, 0x89, 0xCA] : List Byte).length % 2 = 1 ∧
    (∀ u ∈ unitsOf [0x89, 0xD9, 0x89, 0xCA], u &&& 0xFCC0 = 0x88C0) ∧
    ([0xD9] : List Byte).length % 2 = 1 ∧ ∀ u ∈ unitsOf [0x89, 0xD9], u &&& 0xFCC0 = 0x88C0 := by
  rw [test_units_of_p1, test_units_of_one]
  simp

/-- PositionCounterAgreesOnShortStreams: P3 under a 3-bit counter. -/
theorem witness_counter : ([0x89, 0xD9, 0x8B, 0x07, 0x89, 0xCA] : List Byte).length < 2 ^ ({ posW := 3 } : Config).posW ∧
    ReachedFrom [0x89, 0xD9, 0x8B, 0x07, 0x89, 0xCA] 2 midFault := ⟨by decide, rfl⟩

end Sys2Proof.Tests
end

section
/-! PROOFS. Family `10_state.md`: what reset leaves (R21), the register names and their codes (R10, R11), and the
invariant that every step keeps (R16 to R19, R130 to R135). -/

namespace Sys2Proof

open Sys2Proof.Machine

/-! ## What the decoder's answers say of the bytes -/

/-- An instruction is decoded from the first two bytes. -/
theorem eq_cons_cons_of_decode_ok {bs : List Byte} {i : Instr} (h : decode bs = .ok i) :
    ∃ b0 b1 rest, bs = b0 :: b1 :: rest ∧ decodeUnit (joinBytes b0 b1) = .ok i := by
  obtain ⟨-, e⟩ | ⟨b, -, e⟩ | ⟨b0, b1, rest, j, hbs, hu, e⟩ | ⟨b0, b1, rest, f, -, -, e⟩ := decode_cases bs
  · cases e.symm.trans h
  · cases e.symm.trans h
  · cases e.symm.trans h
    exact ⟨b0, b1, rest, hbs, hu⟩
  · cases e.symm.trans h

/-- Only the empty pull is the end of the stream (R133, R155). -/
theorem eq_nil_of_decode_endOfStream {bs : List Byte} (h : decode bs = .error .endOfStream) : bs = [] := by
  obtain ⟨hbs, -⟩ | ⟨b, -, e⟩ | ⟨b0, b1, rest, i, -, -, e⟩ | ⟨b0, b1, rest, f, -, -, e⟩ := decode_cases bs
  · exact hbs
  all_goals cases e.symm.trans h

/-! ## The dispatcher's variant is the one the form emits -/

/-- The variant a record's form emits: operands by `d`, of the width `w` names (R102, R103). -/
theorem emitted_formOf (e : EncodedInstruction) :
    emitted (formOf e) =
      if e.d = 0 then .movRegReg (registerOf e.reg (widthOf e.w)) (registerOf e.rm (widthOf e.w))
      else .movRegReg (registerOf e.rm (widthOf e.w)) (registerOf e.reg (widthOf e.w)) := by
  unfold formOf widthOf
  split_ifs <;> rfl

/-- The MOV resolver tests the addressing mode only; a 3-bit field never fails its lookup (R101, D28). -/
theorem resolveMov_eq (e : EncodedInstruction) :
    resolveMov e = if e.mode = registerDirect then .ok (emitted (formOf e))
      else .error .unsupportedAddressingMode := by
  rw [emitted_formOf]
  by_cases hm : e.mode = registerDirect
  · simp only [resolveMov, regLookup_toNat, hm, ne_eq, not_true_eq_false, if_false, if_true]
    split_ifs <;> rfl
  · simp [resolveMov, hm]

/-- A resolved record gives the variant of its form. -/
theorem eq_emitted_of_dispatch_ok {e : EncodedInstruction} {v : Variant} (h : dispatch e = .ok v) :
    v = emitted (formOf e) := by
  unfold dispatch at h
  split at h
  · cases h
  next t _ =>
    have hr : resolve t.cls e = resolveMov e := by cases t.cls; rfl
    rw [hr, resolveMov_eq] at h
    split at h <;> cases h
    rfl

/-- What the instruction of a unit emits is what the dispatcher makes of the unit (R109). -/
theorem decode16_of_decodeUnit_ok {u : Unit16} {i : Instr} (h : decodeUnit u = .ok i) :
    decode16 u = .ok (emitted i) := by
  obtain ⟨⟨v, hv⟩, rfl⟩ := (decodeUnit_ok_iff u i).mp h
  rw [hv, eq_emitted_of_dispatch_ok hv]

end Sys2Proof

namespace Sys2Proof.Machine

open Sys2Proof

/-! ## The register names and their codes -/

@[simp] theorem widthBit_widthOf (w : BitVec 1) : widthBit (widthOf w) = w := by
  revert w; decide

/-- The 4-bit code of a register is `8*w + field` of its canonical pair (R11). -/
theorem toNat_regId (r : Register) :
    (regId r).toNat = 8 * (widthBit (regWidth r)).toNat + (regField r).toNat := by
  have hf : (regField r).toNat < 2 ^ 3 := (regField r).isLt
  rw [regId, BitVec.toNat_append, ← Nat.shiftLeft_add_eq_or_of_lt hf, Nat.shiftLeft_eq, Nat.mul_comm]

/-- Settles O1: the names are listed, and every constructor of `Register` is in the list. -/
theorem registersAreTheSixteenNames : Obligations.RegistersAreTheSixteenNames := by
  unfold Obligations.RegistersAreTheSixteenNames
  refine ⟨by decide, fun r => ?_, by decide, by decide⟩
  cases r <;> decide

/-- Settles O5: the code of a looked-up register, from the width and field of the lookup. -/
theorem registerIdPacksThePair : Obligations.RegisterIdPacksThePair := by
  unfold Obligations.RegisterIdPacksThePair
  refine ⟨fun f w => ?_, by decide⟩
  rw [toNat_regId, regWidth_registerOf, regField_registerOf, widthBit_widthOf]

/-! ## Steps of an ended block, and reset -/

/-- In DONE and FAULT a step changes nothing (R135). -/
theorem step_of_ended {s : State} (h : s.ended) : step s = .next s := by
  obtain ⟨-, e⟩ | ⟨hrun, -⟩ | ⟨i, hrun, -⟩ | ⟨r, hrun, -⟩ := step_cases s
  · exact e
  all_goals exact absurd hrun h

/-- Nothing of a state but its stream survives a reset (R180). -/
theorem applyReset_eq_of_stream_eq {s t : State} (h : s.stream = t.stream) : s.applyReset = t.applyReset := by
  rw [State.applyReset, State.applyReset, h]

/-- Settles O44: the field values are the laws of `reset` and `applyReset`, and an ended block stays as it is. -/
theorem resetValues : Obligations.ResetValues := by
  unfold Obligations.ResetValues
  refine ⟨by simp, by simp, fun _ _ => applyReset_eq_of_stream_eq, fun s t hs ht => ?_⟩
  rw [step_of_ended hs] at ht
  cases ht
  rfl

/-! ## The pull as a piece of the byte sequence -/

/-- A pull of a stream answers the next two bytes, or what is left of them (R31). -/
theorem Memory.pull_eq_take_drop {m : Memory} (h : m.isStream = true) (pos : Nat) :
    m.pull pos = (m.bytes.drop pos).take 2 := by
  have hread (n : Nat) : m.memRead pos n = (m.bytes.drop pos).take n := by
    rw [Memory.eq_ofBytes h, Memory.memRead_ofBytes, Memory.bytes_ofBytes]
  have hlen : (m.bytes.drop pos).length = m.size - pos := by rw [List.length_drop, Memory.length_bytes]
  unfold Memory.pull
  split
  · exact hread 2
  split
  · rw [hread, List.take_of_length_le (by omega), List.take_of_length_le (by omega)]
  · rw [List.eq_nil_of_length_eq_zero (by omega : (m.bytes.drop pos).length = 0), List.take_nil]

theorem State.fetch_eq_take_drop {s : State} (h : s.stream.isStream = true) :
    s.fetch = (s.stream.bytes.drop s.pos).take 2 :=
  Memory.pull_eq_take_drop h s.pos

/-- A pull of two bytes finds them at `pos`. -/
theorem State.drop_pos_of_fetch {s : State} (h : s.stream.isStream = true) {b0 b1 : Byte} {rest : List Byte}
    (hf : s.fetch = b0 :: b1 :: rest) : ∃ tail, s.stream.bytes.drop s.pos = b0 :: b1 :: tail := by
  rw [State.fetch_eq_take_drop h] at hf
  match hd : s.stream.bytes.drop s.pos with
  | [] | [_] => simp [hd] at hf
  | c0 :: c1 :: tail =>
    simp only [hd, List.take_succ_cons, List.cons.injEq] at hf
    obtain ⟨rfl, rfl, -⟩ := hf
    exact ⟨tail, rfl⟩

/-- An empty pull means that no byte is left at `pos` (R133). -/
theorem State.size_le_pos_of_fetch_nil {s : State} (h : s.stream.isStream = true) (hf : s.fetch = []) :
    s.stream.size ≤ s.pos := by
  rw [State.fetch_eq_take_drop h] at hf
  have hlen := congrArg List.length hf
  rw [List.length_take, List.length_drop, Memory.length_bytes, List.length_nil] at hlen
  omega

@[simp] theorem State.takeFault_fetch (s : State) (f : DecodeFault) (info : Unit16) :
    (s.takeFault f info).fetch = s.fetch := rfl

/-! ## The units passed -/

/-- The k-th unit of a byte sequence is made of the bytes at `2*k` and `2*k + 1` (R137). -/
theorem getElem?_unitsOf {bs : List Byte} {k : Nat} {b0 b1 : Byte} {tail : List Byte}
    (h : bs.drop (2 * k) = b0 :: b1 :: tail) : (unitsOf bs)[k]? = some (joinBytes b0 b1) := by
  induction k generalizing bs with
  | zero =>
    rw [Nat.mul_zero, List.drop_zero] at h
    rw [h]
    rfl
  | succ k ih =>
    match bs with
    | [] | [_] => simp [Nat.mul_succ] at h
    | _ :: _ :: bs => exact ih h

/-- Lines that are the decodings of the first units stay so when the next unit's line is appended. -/
theorem forall₂_lineDecodes_snoc {us : List Unit16} {es : List Emission} {u : Unit16} {v : Variant}
    (hes : List.Forall₂ lineDecodes (us.take es.length) es) (hu : us[es.length]? = some u)
    (hv : decode16 u = .ok v) :
    List.Forall₂ lineDecodes (us.take (es.length + 1)) (es ++ [lineOf v]) := by
  rw [List.take_add_one, hu]
  exact List.rel_append hes (.cons ⟨hv, rfl⟩ .nil)

/-! ## What each effect of a step does to the invariant -/

/-- Emitting the instruction decoded at `pos` keeps the invariant (R131). -/
theorem State.Inv.emit {s : State} (h : s.Inv) (hrun : s.status = .run) {i : Instr} (hd : decode s.fetch = .ok i) :
    (s.emit (emitted i)).Inv := by
  obtain ⟨b0, b1, rest, hf, hu⟩ := eq_cons_cons_of_decode_ok hd
  obtain ⟨tail, htail⟩ := State.drop_pos_of_fetch h.stream_ok hf
  have heven := h.pos_even
  have hlen := h.out_length
  have hpos : s.pos = 2 * s.out.length := by omega
  refine
    { stream_ok := h.stream_ok
      pos_even := ?_
      pos_le := ?_
      out_length := ?_
      out_decodes := ?_
      record_clear := fun hne => h.record_clear hne
      record_holds := fun hfault => ?_
      done_at_end := fun hdone => ?_ }
  · rw [State.emit_pos]
    omega
  · have hcount := congrArg List.length htail
    rw [List.length_drop, Memory.length_bytes, List.length_cons, List.length_cons] at hcount
    rw [State.emit_pos, State.emit_stream]
    omega
  · rw [State.emit_out, State.emit_pos, List.length_append, List.length_singleton]
    omega
  · rw [State.emit_out, List.length_append, List.length_singleton]
    exact forall₂_lineDecodes_snoc h.out_decodes (getElem?_unitsOf (hpos ▸ htail)) (decode16_of_decodeUnit_ok hu)
  · cases hrun.symm.trans hfault
  · cases hrun.symm.trans hdone

/-- Entering a fault that the bytes at `pos` raise keeps the invariant (R157). -/
theorem State.Inv.takeFault {s : State} (h : s.Inv) {f : DecodeFault} {info : Unit16}
    (hd : decode s.fetch = .error (.decodeFault f info)) : (s.takeFault f info).Inv :=
  { h with
    record_clear := fun hne => absurd rfl hne
    record_holds := fun _ => ⟨rfl, f, rfl, hd⟩
    done_at_end := nofun }

/-- Ending the run on an empty pull keeps the invariant (R133). -/
theorem State.Inv.endRun {s : State} (h : s.Inv) (hrun : s.status = .run)
    (hd : decode s.fetch = .error .endOfStream) : s.endRun.Inv :=
  have hend := State.size_le_pos_of_fetch_nil h.stream_ok (eq_nil_of_decode_endOfStream hd)
  { h with
    record_clear := fun _ => h.record_clear (by simp [hrun])
    record_holds := nofun
    done_at_end := fun _ => Nat.le_antisymm h.pos_le hend }

/-- Settles O46: each effect of a step (R130 to R135) keeps the invariant. -/
theorem stepKeepsTheInvariant : Obligations.StepKeepsTheInvariant := by
  unfold Obligations.StepKeepsTheInvariant
  intro s t hinv hstep
  obtain ⟨-, e⟩ | ⟨-, -, e⟩ | ⟨i, hrun, -, hd, e⟩ | ⟨r, hrun, -, hd, e⟩ := step_cases s
  · cases e.symm.trans hstep
    exact hinv
  · cases e.symm.trans hstep
  · cases e.symm.trans hstep
    exact hinv.emit hrun hd
  · cases e.symm.trans hstep
    cases r with
    | endOfStream => exact hinv.endRun hrun hd
    | decodeFault f info => exact hinv.takeFault hd

end Sys2Proof.Machine
end

section
/-! PROOFS. Family `20_memory.md`: the pull and `MemRead` (R31, R32), the byte order of a unit (R34), and what a run
reads, leaves unchanged and emits (R40, R42, R43). -/

namespace Sys2Proof.Machine

open Sys2Proof

/-! ## Reads of a stream -/

/-- The byte at an offset of a stream is that element of its byte sequence (R30). -/
theorem Memory.readByte_eq_getElem? {m : Memory} (h : m.isStream = true) (a : Nat) : m.readByte a = m.bytes[a]? := by
  rw [Memory.eq_ofBytes h, Memory.readByte_ofBytes, Memory.bytes_ofBytes]

/-- `MemRead` of a stream is a piece of its byte sequence (R32). -/
theorem Memory.memRead_eq_take_drop {m : Memory} (h : m.isStream = true) (a n : Nat) :
    m.memRead a n = (m.bytes.drop a).take n := by
  rw [Memory.eq_ofBytes h, Memory.memRead_ofBytes, Memory.bytes_ofBytes]

/-- Every offset below `L` holds a byte (R30). -/
theorem Memory.exists_readByte_of_lt {m : Memory} (h : m.isStream = true) {a : Nat} (ha : a < m.size) :
    ∃ b, m.readByte a = some b := by
  rw [← Memory.length_bytes] at ha
  exact ⟨m.bytes[a], by rw [Memory.readByte_eq_getElem? h, List.getElem?_eq_getElem ha]⟩

/-- No offset from `L` on holds a byte (R30). -/
theorem Memory.readByte_of_size_le {m : Memory} (h : m.isStream = true) {a : Nat} (ha : m.size ≤ a) :
    m.readByte a = none := by
  rw [Memory.readByte_eq_getElem? h, List.getElem?_eq_none (by rwa [Memory.length_bytes])]

/-- A pull answers the byte at `pos` and the byte after it, as far as they exist (R31). -/
theorem Memory.pull_eq_readBytes {m : Memory} (h : m.isStream = true) (pos : Nat) :
    m.pull pos = (m.readByte pos).toList ++ (m.readByte (pos + 1)).toList := by
  rw [Memory.pull_eq_take_drop h, Memory.readByte_eq_getElem? h, Memory.readByte_eq_getElem? h,
    List.take_add_one, List.take_add_one, List.take_zero, List.nil_append, List.getElem?_drop, List.getElem?_drop,
    Nat.add_zero]

/-- A pull from the end of the stream on is empty (R31). -/
theorem Memory.pull_of_size_le {m : Memory} (h : m.isStream = true) {pos : Nat} (hpos : m.size ≤ pos) :
    m.pull pos = [] := by
  rw [Memory.pull_eq_readBytes h, Memory.readByte_of_size_le h hpos, Memory.readByte_of_size_le h (by omega)]
  rfl

/-- A pull of two bytes finds them at `pos` and `pos + 1`. -/
theorem State.readBytes_of_fetch {s : State} (h : s.stream.isStream = true) {b0 b1 : Byte} {rest : List Byte}
    (hf : s.fetch = b0 :: b1 :: rest) :
    s.stream.readByte s.pos = some b0 ∧ s.stream.readByte (s.pos + 1) = some b1 := by
  obtain ⟨tail, htail⟩ := State.drop_pos_of_fetch h hf
  rw [Memory.readByte_eq_getElem? h, Memory.readByte_eq_getElem? h, ← Nat.add_zero s.pos, Nat.add_assoc,
    ← List.getElem?_drop, ← List.getElem?_drop, htail]
  exact ⟨rfl, rfl⟩

/-- Bytes that decode are two bytes of the stream, so at least two are left at `pos`. -/
theorem State.pos_add_two_le_of_decode_ok {s : State} (h : s.stream.isStream = true) {i : Instr}
    (hd : decode s.fetch = .ok i) : s.pos + 2 ≤ s.stream.size := by
  obtain ⟨b0, b1, rest, hf, -⟩ := eq_cons_cons_of_decode_ok hd
  obtain ⟨tail, htail⟩ := State.drop_pos_of_fetch h hf
  have hcount := congrArg List.length htail
  rw [List.length_drop, Memory.length_bytes, List.length_cons, List.length_cons] at hcount
  omega

/-- The pull of a state with another stream that reads the same at `pos` and `pos + 1` (R43). -/
theorem State.fetch_with_stream {s : State} {m : Memory} (hs : s.stream.isStream = true) (hm : m.isStream = true)
    (h0 : m.readByte s.pos = s.stream.readByte s.pos)
    (h1 : m.readByte (s.pos + 1) = s.stream.readByte (s.pos + 1)) :
    State.fetch { s with stream := m } = s.fetch := by
  rw [State.fetch, State.fetch, Memory.pull_eq_readBytes hm, Memory.pull_eq_readBytes hs, h0, h1]

/-! ## What a step does, by what the pull decodes to -/

section

variable {s : State} (hrun : s.status = .run)

include hrun

/-- A source that is no stream is refused (D20). -/
theorem step_of_not_isStream (hs : s.stream.isStream = false) : step s = .refused .sourceNotAStream := by
  simp [step, hrun, hs]

/-- The step on bytes that decode (R131). -/
theorem step_of_decode_ok (hs : s.stream.isStream = true) {i : Instr} (hd : decode s.fetch = .ok i) :
    step s = .next (s.emit (emitted i)) := by
  simp [step, hrun, hs, hd, exec_eq_emit]

/-- The step on bytes that are no instruction (R132 to R134). -/
theorem step_of_decode_error (hs : s.stream.isStream = true) {r : Rejection} (hd : decode s.fetch = .error r) :
    step s = .next (s.reject r) := by
  simp [step, hrun, hs, hd]

end

/-- Every next state a step can answer. -/
theorem step_next_cases {s t : State} (h : step s = .next t) :
    (s.ended ∧ t = s) ∨
    (∃ i, s.status = .run ∧ s.stream.isStream = true ∧ decode s.fetch = .ok i ∧ t = s.emit (emitted i)) ∨
    (∃ r, s.status = .run ∧ s.stream.isStream = true ∧ decode s.fetch = .error r ∧ t = s.reject r) := by
  obtain ⟨hend, e⟩ | ⟨-, -, e⟩ | ⟨i, hrun, hs, hd, e⟩ | ⟨r, hrun, hs, hd, e⟩ := step_cases s
  all_goals cases e.symm.trans h
  · exact .inl ⟨hend, rfl⟩
  · exact .inr (.inl ⟨i, hrun, hs, hd, rfl⟩)
  · exact .inr (.inr ⟨r, hrun, hs, hd, rfl⟩)

/-! ## What a rejection leaves unchanged -/

@[simp] theorem State.reject_stream (s : State) (r : Rejection) : (s.reject r).stream = s.stream := by
  cases r <;> rfl

@[simp] theorem State.reject_out (s : State) (r : Rejection) : (s.reject r).out = s.out := by
  cases r <;> rfl

/-- A rejection ends the run (R132 to R134). -/
theorem State.ended_reject (s : State) (r : Rejection) : (s.reject r).ended := by
  cases r <;> exact nofun

/-- A rejection does not look at the stream. -/
theorem State.reject_with_stream (s : State) (m : Memory) (r : Rejection) :
    State.reject { s with stream := m } r = { s.reject r with stream := m } := by
  cases r <;> rfl

/-! ## What every step and run keeps -/

/-- No step writes the stream (R42). -/
theorem stream_of_step {s t : State} (h : step s = .next t) : t.stream = s.stream := by
  obtain ⟨-, rfl⟩ | ⟨i, -, -, -, rfl⟩ | ⟨r, -, -, -, rfl⟩ := step_next_cases h
  · rfl
  · rfl
  · exact s.reject_stream r

/-- No step withdraws a line (R158). -/
theorem out_prefix_of_step {s t : State} (h : step s = .next t) : s.out <+: t.out := by
  obtain ⟨-, rfl⟩ | ⟨i, -, -, -, rfl⟩ | ⟨r, -, -, -, rfl⟩ := step_next_cases h
  · exact List.prefix_rfl
  · exact List.prefix_append _ _
  · rw [State.reject_out]

theorem stream_of_run {k : Nat} {s t : State} (h : Sys2Proof.core.run k s = .next t) : t.stream = s.stream :=
  run_keeps (P := (·.stream = s.stream)) (fun _ _ hu hstep => (stream_of_step hstep).trans hu) rfl h

theorem out_prefix_of_run {k : Nat} {s t : State} (h : Sys2Proof.core.run k s = .next t) : s.out <+: t.out :=
  run_keeps (P := (s.out <+: ·.out)) (fun _ _ hu hstep => hu.trans (out_prefix_of_step hstep)) List.prefix_rfl h

/-- The run of an ended block stays where it is (R135). -/
theorem run_of_ended {s : State} (h : s.ended) (k : Nat) : Sys2Proof.core.run k s = .next s := by
  induction k with
  | zero => rfl
  | succ k ih => rw [run_succ_of_next (step_of_ended h), ih]

/-- The invariant holds at launch (R182). -/
theorem State.inv_launch (bs : List Byte) : (State.launch bs).Inv where
  stream_ok := Memory.isStream_ofBytes bs
  pos_even := rfl
  pos_le := Nat.zero_le _
  out_length := by simp
  out_decodes := .nil
  record_clear := fun _ => ⟨rfl, rfl, rfl⟩
  record_holds := nofun
  done_at_end := nofun

/-- The invariant holds wherever a run from launch gets to. -/
theorem ReachedFrom.inv {bs : List Byte} {n : Nat} {t : State} (h : ReachedFrom bs n t) : t.Inv :=
  run_keeps stepKeepsTheInvariant (State.inv_launch bs) h

theorem ReachedFrom.stream_eq {bs : List Byte} {n : Nat} {t : State} (h : ReachedFrom bs n t) :
    t.stream = Memory.ofBytes bs :=
  stream_of_run h

/-! ## The obligations on pulls and reads -/

/-- Settles O27: a pull answers the byte at `pos` and the one after it, as far as the stream has them. -/
theorem pullAnswersTheStream : Obligations.PullAnswersTheStream := by
  unfold Obligations.PullAnswersTheStream
  refine ⟨fun m pos h => ⟨fun hfull => ?_, fun hlone => ?_, Memory.pull_of_size_le h⟩, fun bs pos => ?_,
    fun _ => step_of_not_isStream⟩
  · obtain ⟨b0, h0⟩ := Memory.exists_readByte_of_lt h (a := pos) (by omega)
    obtain ⟨b1, h1⟩ := Memory.exists_readByte_of_lt h (a := pos + 1) (by omega)
    exact ⟨b0, b1, h0, h1, by rw [Memory.pull_eq_readBytes h, h0, h1]; rfl⟩
  · obtain ⟨b, hb⟩ := Memory.exists_readByte_of_lt h (a := pos) (by omega)
    exact ⟨b, hb, by rw [Memory.pull_eq_readBytes h, hb, Memory.readByte_of_size_le h hlone.ge]; rfl⟩
  · rw [Memory.pull_eq_take_drop (Memory.isStream_ofBytes bs), Memory.bytes_ofBytes]

/-- Settles O28: a read and a pull are both pieces of the byte sequence. -/
theorem memReadInStreamOrder : Obligations.MemReadInStreamOrder := by
  unfold Obligations.MemReadInStreamOrder
  refine ⟨fun m addr n h hin => ⟨?_, fun k hk => ?_⟩,
    fun m pos h => ⟨fun _ => ?_, Memory.pull_of_size_le h⟩⟩
  · rw [Memory.memRead_eq_take_drop h, List.length_take, List.length_drop, Memory.length_bytes]
    omega
  · rw [Memory.memRead_eq_take_drop h, List.getElem?_take_of_lt hk, List.getElem?_drop, Memory.readByte_eq_getElem? h]
  · rw [Memory.pull_eq_take_drop h, Memory.memRead_eq_take_drop h, List.take_eq_take_min, List.length_drop,
      Memory.length_bytes]

/-! ## The obligations on steps -/

/-- Settles O37: no effect of a step writes the stream. -/
theorem stepNeverWritesTheStream : Obligations.StepNeverWritesTheStream := by
  unfold Obligations.StepNeverWritesTheStream
  intro s t h
  exact ⟨stream_of_step h, fun a => by rw [stream_of_step h]⟩

/-- Settles O38: the other stream gives the same pull, and no effect of a step looks at the stream. -/
theorem stepDependsOnlyOnTheUnitAtPos : Obligations.StepDependsOnlyOnTheUnitAtPos := by
  unfold Obligations.StepDependsOnlyOnTheUnitAtPos
  intro s m hs hm h0 h1
  by_cases hrun : s.status = .run
  · have hfetch := State.fetch_with_stream hs hm h0 h1
    cases hd : decode s.fetch with
    | ok i =>
      have hd' := (congrArg decode hfetch).trans hd
      exact ⟨_, step_of_decode_ok hrun hs hd, step_of_decode_ok (s := { s with stream := m }) hrun hm hd'⟩
    | error r =>
      have hd' := (congrArg decode hfetch).trans hd
      have hstep' := step_of_decode_error (s := { s with stream := m }) hrun hm hd'
      rw [State.reject_with_stream] at hstep'
      exact ⟨_, step_of_decode_error hrun hs hd, hstep'⟩
  · exact ⟨s, step_of_ended hrun, step_of_ended hrun⟩

/-! ## The k-th line of a run -/

/-- A unit of a byte sequence is made of the bytes at twice its index (R137). -/
theorem bytes_of_getElem?_unitsOf {bs : List Byte} {k : Nat} {u : Unit16} (h : (unitsOf bs)[k]? = some u) :
    ∃ b0 b1, bs[2 * k]? = some b0 ∧ bs[2 * k + 1]? = some b1 ∧ u = joinBytes b0 b1 := by
  induction k generalizing bs with
  | zero =>
    match bs with
    | [] | [_] => cases h
    | b0 :: b1 :: _ =>
      cases h
      exact ⟨b0, b1, rfl, rfl, rfl⟩
  | succ k ih =>
    match bs with
    | [] | [_] => cases h
    | _ :: _ :: bs => exact ih h

/-- A line stands for the unit at its own index. -/
theorem getElem?_of_forall₂_lineDecodes {us : List Unit16} {es : List Emission} {k : Nat} {e : Emission}
    (h : List.Forall₂ lineDecodes (us.take es.length) es) (hk : es[k]? = some e) :
    ∃ u, us[k]? = some u ∧ lineDecodes u e := by
  obtain ⟨hlt, rfl⟩ := List.getElem?_eq_some_iff.mp hk
  have hlt' : k < (us.take es.length).length := by rwa [h.length_eq]
  refine ⟨(us.take es.length)[k], ?_, h.get hlt' hlt⟩
  rw [← List.getElem?_eq_getElem hlt', List.getElem?_take_of_lt hlt]

/-- Settles O50: the invariant's line count and decodings, on a run from launch. -/
theorem linesAreInInputOrder : Obligations.LinesAreInInputOrder := by
  unfold Obligations.LinesAreInInputOrder
  intro bs n t h
  have heven := h.inv.pos_even
  have hlen := h.inv.out_length
  refine ⟨by omega, fun k e he => ?_⟩
  obtain ⟨u, hu, hdec, htext⟩ := getElem?_of_forall₂_lineDecodes h.inv.out_decodes he
  rw [h.stream_eq, Memory.bytes_ofBytes] at hu
  obtain ⟨b0, b1, h0, h1, rfl⟩ := bytes_of_getElem?_unitsOf hu
  exact ⟨b0, b1, h0, h1, hdec, htext⟩

/-! ## The run on an extension of a stream -/

/-- A run on any stream ends, within the step bound of R137. -/
theorem exists_run_ended {s : State} (hs : s.stream.isStream = true) :
    ∃ k t, k ≤ (s.stream.size - s.pos) / 2 + 1 ∧ Sys2Proof.core.run k s = .next t ∧ t.ended := by
  by_cases hrun : s.status = .run
  · cases hd : decode s.fetch with
    | error r =>
      exact ⟨1, s.reject r, by omega, run_succ_of_next (step_of_decode_error hrun hs hd) 0, s.ended_reject r⟩
    | ok i =>
      have hleft := State.pos_add_two_le_of_decode_ok hs hd
      obtain ⟨k, t, hk, ht, hend⟩ := exists_run_ended (s := s.emit (emitted i)) hs
      rw [State.emit_stream, State.emit_pos] at hk
      exact ⟨k + 1, t, by omega, (run_succ_of_next (step_of_decode_ok hrun hs hd) k).trans ht, hend⟩
  · exact ⟨0, s, Nat.zero_le _, rfl, hrun⟩
termination_by s.stream.size - s.pos
decreasing_by
  rw [State.emit_stream, State.emit_pos]
  omega

/-- A stream that holds every byte of another at its offset pulls the same instruction. -/
theorem State.fetch_with_extension {s : State} {m : Memory} (hs : s.stream.isStream = true) (hm : m.isStream = true)
    (hext : ∀ a b, s.stream.readByte a = some b → m.readByte a = some b) {i : Instr} (hd : decode s.fetch = .ok i) :
    State.fetch { s with stream := m } = s.fetch := by
  obtain ⟨b0, b1, rest, hf, -⟩ := eq_cons_cons_of_decode_ok hd
  obtain ⟨h0, h1⟩ := State.readBytes_of_fetch hs hf
  exact State.fetch_with_stream hs hm ((hext _ _ h0).trans h0.symm) ((hext _ _ h1).trans h1.symm)

/-- The lines of a run are also reached on every stream that holds its stream's bytes: the run goes the same way up to
the first pull that is no instruction, and no line comes after that one (R43). -/
theorem exists_run_same_out {m : Memory} (hm : m.isStream = true) {k : Nat} {s t : State}
    (hs : s.stream.isStream = true) (hext : ∀ a b, s.stream.readByte a = some b → m.readByte a = some b)
    (h : Sys2Proof.core.run k s = .next t) :
    ∃ j u, Sys2Proof.core.run j { s with stream := m } = .next u ∧ u.out = t.out := by
  induction k generalizing s with
  | zero =>
    cases h
    exact ⟨0, _, rfl, rfl⟩
  | succ k ih =>
    obtain ⟨v, hstep, hrest⟩ := run_succ_next h
    obtain ⟨-, rfl⟩ | ⟨i, hrun, -, hd, rfl⟩ | ⟨r, -, -, -, rfl⟩ := step_next_cases hstep
    · exact ih hs hext hrest
    · obtain ⟨j, u, hu, hout⟩ := ih (s := s.emit (emitted i)) hs hext hrest
      have hd' := (congrArg decode (State.fetch_with_extension hs hm hext hd)).trans hd
      have hstep' := step_of_decode_ok (s := { s with stream := m }) hrun hm hd'
      exact ⟨j + 1, u, (run_succ_of_next hstep' j).trans hu, hout⟩
    · cases (run_of_ended (s.ended_reject r) k).symm.trans hrest
      exact ⟨0, _, rfl, (s.reject_out r).symm⟩

/-- Settles O51: the extension reaches the lines of the stream, withdraws none, and ends. -/
theorem linesOfAStreamComeFirstInItsExtension : Obligations.LinesOfAStreamComeFirstInItsExtension := by
  unfold Obligations.LinesOfAStreamComeFirstInItsExtension
  intro bs cs n s h _
  have hext (a : Nat) (b : Byte) (ha : (Memory.ofBytes bs).readByte a = some b) :
      (Memory.ofBytes (bs ++ cs)).readByte a = some b := by
    rw [Memory.readByte_ofBytes] at ha ⊢
    exact List.getElem?_append_left (List.getElem?_eq_some_iff.mp ha).1 ▸ ha
  have hstream := Memory.isStream_ofBytes (bs ++ cs)
  obtain ⟨j, u, hu, hout⟩ := exists_run_same_out hstream (s := State.launch bs) (Memory.isStream_ofBytes bs) hext h
  have hu' : u.stream.isStream = true := by rw [stream_of_run hu, hstream]
  obtain ⟨k, t, -, ht, hend⟩ := exists_run_ended hu'
  exact ⟨j + k, t, (run_add hu k).trans ht, hend, hout ▸ out_prefix_of_run ht⟩

end Sys2Proof.Machine

namespace Sys2Proof

/-! ## The byte order of a unit -/

/-- The unit of two bytes as a number (R34). -/
theorem toNat_joinBytes (b0 b1 : Byte) : (joinBytes b0 b1).toNat = b0.toNat * 256 + b1.toNat := by
  rw [joinBytes, BitVec.toNat_append, ← Nat.shiftLeft_add_eq_or_of_lt b1.isLt, Nat.shiftLeft_eq]

/-- The first byte carries opcode, `d` and `w`, the second mode, `reg` and `rm` (R34, R51). -/
theorem extract_joinBytes (b0 b1 : Byte) :
    extract (joinBytes b0 b1) =
      { opcode := b0.extractLsb' 2 6, d := b0.extractLsb' 1 1, w := b0.extractLsb' 0 1
        mode := b1.extractLsb' 6 2, reg := b1.extractLsb' 3 3, rm := b1.extractLsb' 0 3 } := by
  have high {start len : Nat} (h : 8 ≤ start) : (b0 ++ b1).extractLsb' start len = b0.extractLsb' (start - 8) len :=
    BitVec.extractLsb'_append_eq_of_le h
  have low {start len : Nat} (h : start + len ≤ 8) : (b0 ++ b1).extractLsb' start len = b1.extractLsb' start len :=
    BitVec.extractLsb'_append_eq_of_add_le h
  simp [extract, joinBytes, high, low]

/-- The bytes of a unit are those it was made of, in stream order (R34). -/
@[simp] theorem bytesOfUnit_joinBytes (b0 b1 : Byte) : bytesOfUnit (joinBytes b0 b1) = [b0, b1] := by
  rw [bytesOfUnit, joinBytes, BitVec.extractLsb'_append_eq_left, BitVec.extractLsb'_append_eq_right]

/-- Settles O29: the value, the fields and the bytes of a joined unit. -/
theorem unitIsBigEndian : Obligations.UnitIsBigEndian := by
  unfold Obligations.UnitIsBigEndian
  intro b0 b1
  rw [extract_joinBytes]
  exact ⟨toNat_joinBytes b0 b1, rfl, rfl, rfl, rfl, rfl, rfl, bytesOfUnit_joinBytes b0 b1⟩

end Sys2Proof
end

section
/-! PROOFS. Family `30_encoding.md`: the opcode table's entry (R53), the forms by mask and match (R58), and the three
classes of units (R59 to R61). -/

namespace Sys2Proof

open Sys2Proof.Machine

/-! ## Agreement under a mask -/

/-- The mask of the field of `len` bits that begins at bit `start`. -/
def fieldMask (start len : Nat) : Unit16 := (BitVec.allOnes len).setWidth 16 <<< start

theorem getLsbD_fieldMask {start len : Nat} (h : start + len ≤ 16) (i : Nat) :
    (fieldMask start len).getLsbD i = decide (start ≤ i ∧ i < start + len) := by
  rw [fieldMask, BitVec.getLsbD_shiftLeft, BitVec.getLsbD_setWidth, BitVec.getLsbD_allOnes]
  grind

/-- Two units agree under the mask of a field exactly when that field is the same in both. -/
theorem and_fieldMask_eq_iff {start len : Nat} (h : start + len ≤ 16) (u r : Unit16) :
    u &&& fieldMask start len = r &&& fieldMask start len ↔ u.extractLsb' start len = r.extractLsb' start len := by
  constructor
  · intro hmasked
    ext i hi
    have hbit := congrArg (·.getLsbD (start + i)) hmasked
    simpa [getLsbD_fieldMask h, hi] using hbit
  · intro hfield
    refine BitVec.eq_of_getLsbD_eq fun i _ => ?_
    by_cases hin : start ≤ i ∧ i < start + len
    · have hlt : i - start < len := by omega
      have hbit : u.getLsbD i = r.getLsbD i := by
        simpa [hlt, hin.1] using congrArg (·.getLsbD (i - start)) hfield
      rw [BitVec.getLsbD_and, BitVec.getLsbD_and, hbit]
    · simp [getLsbD_fieldMask h, hin]

/-- Agreement under a union of masks is agreement under each. -/
theorem and_or_eq_iff (u r a b : Unit16) :
    u &&& (a ||| b) = r &&& (a ||| b) ↔ u &&& a = r &&& a ∧ u &&& b = r &&& b := by
  constructor
  · intro h
    have hpart (m : Unit16) (hm : (a ||| b) &&& m = m) : u &&& m = r &&& m := by
      rw [← hm, ← BitVec.and_assoc, h, BitVec.and_assoc]
    exact ⟨hpart a (by ext; simp +contextual), hpart b (by ext; simp +contextual)⟩
  · rintro ⟨ha, hb⟩
    rw [BitVec.and_or_distrib_left, ha, hb, BitVec.and_or_distrib_left]

/-! ## The masks of R58 to R60 as tests of fields -/

theorem and_opcodeMask_eq_iff (u : Unit16) : u &&& 0xFC00 = 0x8800 ↔ (extract u).opcode = movOpcode :=
  and_fieldMask_eq_iff (start := 10) (len := 6) (by decide) u 0x8800

theorem and_modeMask_eq_iff (u : Unit16) : u &&& 0x00C0 = 0x00C0 ↔ (extract u).mode = registerDirect :=
  and_fieldMask_eq_iff (start := 6) (len := 2) (by decide) u 0x00C0

/-- R58's joint mask tests the opcode and the mode. -/
theorem and_jointMask_eq_iff (u : Unit16) :
    u &&& 0xFCC0 = 0x88C0 ↔ (extract u).opcode = movOpcode ∧ (extract u).mode = registerDirect := by
  rw [← and_opcodeMask_eq_iff, ← and_modeMask_eq_iff]
  exact and_or_eq_iff u 0x88C0 0xFC00 0x00C0

/-- The mask of R58's four rows tests every field but `reg` and `rm`. -/
theorem and_rowMask_eq_iff (u r : Unit16) :
    u &&& 0xFFC0 = r &&& 0xFFC0 ↔
      (extract u).opcode = (extract r).opcode ∧ (extract u).d = (extract r).d ∧
      (extract u).w = (extract r).w ∧ (extract u).mode = (extract r).mode := by
  have hmask : (0xFFC0 : Unit16) = fieldMask 10 6 ||| (fieldMask 9 1 ||| (fieldMask 8 1 ||| fieldMask 6 2)) := by decide
  rw [hmask]
  simp only [and_or_eq_iff, and_fieldMask_eq_iff, extract, Nat.reduceAdd, Nat.reduceLeDiff]

/-! ## Units and records -/

theorem EncodedInstruction.eq_iff (e r : EncodedInstruction) :
    e = r ↔ e.opcode = r.opcode ∧ e.d = r.d ∧ e.w = r.w ∧ e.mode = r.mode ∧ e.reg = r.reg ∧ e.rm = r.rm := by
  cases e
  cases r
  rw [EncodedInstruction.mk.injEq]

/-- The fields of a record's unit are the record's (R92). -/
@[simp] theorem extract_recompose (e : EncodedInstruction) : extract (recompose e) = e := by
  have last {n len : Nat} (x : BitVec n) (y : BitVec len) : (x ++ y).extractLsb' 0 len = y :=
    BitVec.extractLsb'_append_eq_right
  have earlier {n m start len : Nat} (x : BitVec n) (y : BitVec m) (h : m ≤ start) :
      (x ++ y).extractLsb' start len = x.extractLsb' (start - m) len := BitVec.extractLsb'_append_eq_of_le h
  unfold extract recompose
  rw [EncodedInstruction.eq_iff]
  simp [earlier, last]

@[simp] theorem formOf_fieldsOf (i : Instr) : formOf (fieldsOf i) = i := by
  cases i <;> rfl

/-- The form of a record with the opcode and mode of R53 and R55 has that record's fields. -/
theorem fieldsOf_formOf {e : EncodedInstruction} (hop : e.opcode = movOpcode) (hmode : e.mode = registerDirect) :
    fieldsOf (formOf e) = e := by
  obtain ⟨opcode, d, w, mode, reg, rm⟩ := e
  cases hop
  cases hmode
  obtain rfl | rfl := BitVec.eq_zero_or_eq_one d <;> obtain rfl | rfl := BitVec.eq_zero_or_eq_one w <;> rfl

/-! ## The opcode table's entry -/

/-- The table's entry selects a record by its opcode field alone (R53). -/
theorem entrySelects_iff {t : OpcodeEntry} (ht : t ∈ opcodeTable) (e : EncodedInstruction) :
    entrySelects t e = true ↔ e.opcode = movOpcode := by
  cases List.mem_singleton.mp ht
  rw [entrySelects, beq_iff_eq, and_opcodeMask_eq_iff, extract_recompose]

/-- Settles O8: the entry's mask is the mask of the opcode field. -/
theorem opcodeTableHasTheOneMovEntry : Obligations.OpcodeTableHasTheOneMovEntry := by
  unfold Obligations.OpcodeTableHasTheOneMovEntry
  exact ⟨rfl, fun _ => entrySelects_iff⟩

/-! ## The dispatcher's answer -/

/-- The opcode is tested first, then the mode, and nothing else can fail (R101). -/
theorem dispatch_eq (e : EncodedInstruction) :
    dispatch e =
      if e.opcode = movOpcode then
        if e.mode = registerDirect then .ok (emitted (formOf e)) else .error .unsupportedAddressingMode
      else .error .unsupportedOpcode := by
  have hsel := entrySelects_iff (List.mem_singleton.mpr rfl) e
  by_cases hop : e.opcode = movOpcode
  · have hfind : opcodeTable.find? (entrySelects · e) = some _ := List.find?_cons_of_pos (hsel.mpr hop)
    simp only [dispatch, hfind, resolve, resolveMov_eq, hop, if_true]
  · have hfind : opcodeTable.find? (entrySelects · e) = none := List.find?_cons_of_neg (mt hsel.mp hop)
    simp only [dispatch, hfind, hop, if_false]

/-- What a unit decodes to, by its opcode and mode (R59, R60). -/
theorem decode16_eq (u : Unit16) :
    decode16 u =
      if (extract u).opcode = movOpcode then
        if (extract u).mode = registerDirect then .ok (emitted (formOf (extract u)))
        else .error .unsupportedAddressingMode
      else .error .unsupportedOpcode :=
  dispatch_eq (extract u)

theorem exists_decode16_ok_iff (u : Unit16) :
    (∃ v, decode16 u = .ok v) ↔ (extract u).opcode = movOpcode ∧ (extract u).mode = registerDirect := by
  rw [decode16_eq]
  split_ifs <;> simp [*]

/-- A unit decodes to the instruction whose fields are its own. -/
theorem decodeUnit_eq_ok_iff (u : Unit16) (i : Instr) : decodeUnit u = .ok i ↔ extract u = fieldsOf i := by
  rw [decodeUnit_ok_iff, exists_decode16_ok_iff]
  constructor
  · rintro ⟨⟨hop, hmode⟩, rfl⟩
    exact (fieldsOf_formOf hop hmode).symm
  · intro h
    rw [h, formOf_fieldsOf]
    cases i <;> exact ⟨⟨rfl, rfl⟩, rfl⟩

/-! ## The forms by mask and match -/

/-- A unit decodes to an instruction with its own `reg` and `rm` exactly when it has that instruction's match value
under the mask of R58's rows. -/
theorem decodeUnit_eq_ok_iff_rowMask {u r : Unit16} {i : Instr} (hrow : encodeUnit i &&& 0xFFC0 = r)
    (hreg : (extract u).reg = (fieldsOf i).reg) (hrm : (extract u).rm = (fieldsOf i).rm) :
    decodeUnit u = .ok i ↔ u &&& 0xFFC0 = r := by
  rw [← hrow, and_rowMask_eq_iff, encodeUnit, extract_recompose, decodeUnit_eq_ok_iff, EncodedInstruction.eq_iff]
  simp only [hreg, hrm, and_true]

/-- Settles O14: each row's match value is the one of its instructions' units. -/
theorem formsByMaskAndMatch : Obligations.FormsByMaskAndMatch := by
  unfold Obligations.FormsByMaskAndMatch
  intro u
  refine ⟨decodeUnit_eq_ok_iff_rowMask (Laws.RowPattern.movRm8R8 _ _) rfl rfl,
    decodeUnit_eq_ok_iff_rowMask (Laws.RowPattern.movRm16R16 _ _) rfl rfl,
    decodeUnit_eq_ok_iff_rowMask (Laws.RowPattern.movR8Rm8 _ _) rfl rfl,
    decodeUnit_eq_ok_iff_rowMask (Laws.RowPattern.movR16Rm16 _ _) rfl rfl, ?_⟩
  rw [and_jointMask_eq_iff, ← exists_decode16_ok_iff]
  simp [decodeUnit_ok_iff]

/-! ## Counting units by their leading bits -/

/-- Counting the numbers below `a * b` by conditions on quotient and remainder. -/
theorem countP_range_mul (p q : Nat → Bool) (a b : Nat) :
    (List.range (a * b)).countP (fun n => p (n / b) && q (n % b)) =
      (List.range a).countP p * (List.range b).countP q := by
  induction a with
  | zero => simp
  | succ a ih =>
    have hrow : (List.range b).countP (fun r => p ((a * b + r) / b) && q ((a * b + r) % b)) =
        (List.range b).countP (fun r => p a && q r) := by
      refine List.countP_congr fun r hr => ?_
      have hr : r < b := List.mem_range.mp hr
      rw [Nat.add_comm, Nat.add_mul_div_right _ _ (by omega), Nat.add_mul_mod_self_right, Nat.div_eq_of_lt hr,
        Nat.mod_eq_of_lt hr, Nat.zero_add]
    rw [Nat.succ_mul, List.range_add, List.countP_append, ih, List.countP_map, List.range_succ, List.countP_append,
      Nat.add_mul]
    congr 1
    refine hrow.trans ?_
    cases hp : p a <;> simp [hp]

/-- The number of units in a class that is told by a condition on the opcode and one on `d`, `w` and mode, these as one
4-bit number. -/
theorem countP_units {inClass : Nat → Bool} (p q : Nat → Bool)
    (h : ∀ n < 65536, inClass n = (p (n / 1024) && q (n % 1024 / 64))) :
    (List.range 65536).countP inClass = (List.range 64).countP p * ((List.range 16).countP q * 64) := by
  have hlow := countP_range_mul q (fun _ => true) 16 64
  simp only [Bool.and_true, List.countP_true, List.length_range, Nat.reduceMul] at hlow
  rw [← hlow, ← countP_range_mul p (fun r => q (r / 64)) 64 1024]
  exact List.countP_congr fun n hn => by rw [h n (List.mem_range.mp hn)]

/-- What the unit of a number decodes to, by the number's quotients. -/
theorem decode16_ofNat {n : Nat} (hn : n < 65536) :
    decode16 (BitVec.ofNat 16 n) =
      if n / 1024 = 34 then
        if n % 1024 / 64 % 4 = 3 then .ok (emitted (formOf (extract (BitVec.ofNat 16 n))))
        else .error .unsupportedAddressingMode
      else .error .unsupportedOpcode := by
  have hfield (start len : Nat) :
      ((BitVec.ofNat 16 n).extractLsb' start len).toNat = n / 2 ^ start % 2 ^ len := by
    rw [BitVec.extractLsb'_toNat, BitVec.toNat_ofNat, Nat.mod_eq_of_lt hn, Nat.shiftRight_eq_div_pow]
  have hop : (extract (BitVec.ofNat 16 n)).opcode = movOpcode ↔ n / 1024 = 34 := by
    have hquot : n / 2 ^ 10 % 2 ^ 6 = n / 1024 := by omega
    rw [extract, ← BitVec.toNat_inj, hfield, hquot]
    rfl
  have hmode : (extract (BitVec.ofNat 16 n)).mode = registerDirect ↔ n % 1024 / 64 % 4 = 3 := by
    have hquot : n / 2 ^ 6 % 2 ^ 2 = n % 1024 / 64 % 4 := by omega
    rw [extract, ← BitVec.toNat_inj, hfield, hquot]
    rfl
  rw [decode16_eq]
  simp only [hop, hmode]

/-- Settles O13: the classes by the masks, and the numbers by the leading ten bits. -/
theorem unitsSplitIntoThreeClasses : Obligations.UnitsSplitIntoThreeClasses := by
  unfold Obligations.UnitsSplitIntoThreeClasses
  refine ⟨fun u => ⟨?_, ?_⟩, ?_, ?_, ?_⟩
  · rw [and_jointMask_eq_iff, exists_decode16_ok_iff]
  · rw [ne_eq, ne_eq, and_opcodeMask_eq_iff, and_modeMask_eq_iff, decode16_eq]
    split_ifs <;> simp [*]
  · refine (countP_units (· = 34) (· % 4 = 3) fun n hn => ?_).trans (by decide)
    rw [decode16_ofNat hn]
    split_ifs <;> simp [*, Except.isOk, Except.toBool]
  · refine (countP_units (· = 34) (· % 4 ≠ 3) fun n hn => ?_).trans (by decide)
    rw [decode16_ofNat hn]
    split_ifs <;> simp [*]
  · refine (countP_units (· ≠ 34) (fun _ => true) fun n hn => ?_).trans (by decide)
    rw [decode16_ofNat hn]
    split_ifs <;> simp [*]

end Sys2Proof
end

section
/-! PROOFS. Family `40_register_table.md`: the rows of the Register Table (R80), its fail-fast outside the field's domain
(R82), and the round trip with the canonical pair (R83). -/

namespace Sys2Proof

open Sys2Proof.Machine

/-! ## The domain of the lookup -/

/-- A column has eight rows; a field value past them fails fast (R82). -/
theorem Machine.regLookup_of_le {f : Nat} (hf : 8 ≤ f) (w : Width) :
    regLookup f w = .error .malformedFieldValue := by
  rw [regLookup, Vector.getElem?_eq_none hf]

/-- A field value inside the domain is that of a 3-bit field, whose lookup is the table's entry (R80). -/
theorem Machine.regLookup_of_lt {f : Nat} (hf : f < 8) (w : Width) :
    regLookup f w = .ok (registerOf (BitVec.ofNat 3 f) w) := by
  rw [← regLookup_toNat, BitVec.toNat_ofNat, Nat.mod_eq_of_lt hf]

/-- The dispatcher looks up 3-bit fields only, so no unit reaches the lookup's failure (R153). -/
theorem decode16_ne_malformedFieldValue (u : Unit16) : decode16 u ≠ .error .malformedFieldValue := by
  rw [decode16_eq]
  split_ifs <;> simp

/-! ## The canonical pair -/

/-- The entry at a register's canonical pair is the register (R83). -/
@[simp] theorem Machine.registerOf_regField_regWidth (r : Register) : registerOf (regField r) (regWidth r) = r := by
  cases r <;> rfl

/-! ## The obligations on the table -/

/-- Settles O2: each row is read off its column, and a 3-bit field never leaves the column. -/
theorem registerTableRows : Obligations.RegisterTableRows := by
  unfold Obligations.RegisterTableRows
  exact ⟨⟨rfl, rfl, rfl, rfl, rfl, rfl, rfl, rfl⟩, ⟨rfl, rfl, rfl, rfl, rfl, rfl, rfl, rfl⟩, regLookup_toNat⟩

/-- Settles O3: the lookup on both sides of the column's end, and the dispatcher's answers. -/
theorem regLookupFailsFastOutsideItsDomain : Obligations.RegLookupFailsFastOutsideItsDomain := by
  unfold Obligations.RegLookupFailsFastOutsideItsDomain
  exact ⟨fun _ w hf => regLookup_of_le hf w, fun _ w hf => ⟨_, regLookup_of_lt hf w⟩,
    decode16_ne_malformedFieldValue⟩

/-- Settles O4: a lookup of a field is its table entry, whose canonical pair is the field and the width. -/
theorem registerRoundTrip : Obligations.RegisterRoundTrip := by
  unfold Obligations.RegisterRoundTrip
  refine ⟨fun f w r hr => ?_, fun r => ?_⟩
  · obtain rfl : registerOf f w = r := Except.ok.inj ((regLookup_toNat f w).symm.trans hr)
    rw [regEncode, regField_registerOf, regWidth_registerOf]
  · rw [regEncode, regLookup_toNat, registerOf_regField_regWidth]

end Sys2Proof
end

section
/-! PROOFS. Family `41_field_extractor.md`: the fields of a unit by shift and mask (R90), and the unit of a record by
shift and or, with the inverse laws (R92). -/

namespace Sys2Proof

open Sys2Proof.Machine

/-- A run of `len` bits from bit `start`, as R90 writes it. -/
theorem toNat_extractLsb'_eq_shiftRight_and {n : Nat} (x : BitVec n) (start len : Nat) :
    (x.extractLsb' start len).toNat = (x.toNat >>> start) &&& (2 ^ len - 1) := by
  rw [BitVec.extractLsb'_toNat, Nat.and_two_pow_sub_one_eq_mod]

/-- Settles O6: each field is a run of the unit's bits. -/
theorem extractTakesTheSixFields : Obligations.ExtractTakesTheSixFields := by
  unfold Obligations.ExtractTakesTheSixFields
  intro u
  have field := toNat_extractLsb'_eq_shiftRight_and u
  exact ⟨field 10 6, field 9 1, field 8 1, field 6 2, field 3 3, field 0 3⟩

/-- The unit of a record as R92 writes it: each appended field shifts those before it. -/
theorem toNat_recompose (e : EncodedInstruction) :
    (recompose e).toNat =
      (e.opcode.toNat <<< 10) ||| (e.d.toNat <<< 9) ||| (e.w.toNat <<< 8) ||| (e.mode.toNat <<< 6) |||
        (e.reg.toNat <<< 3) ||| e.rm.toNat := by
  rw [recompose, BitVec.toNat_append, BitVec.toNat_append, BitVec.toNat_append, BitVec.toNat_append,
    BitVec.toNat_append]
  simp only [Nat.shiftLeft_or_distrib, ← Nat.shiftLeft_add, Nat.reduceAdd]

/-- The unit of a unit's fields is the unit: the six runs of bits are adjacent and cover it (R92). -/
@[simp] theorem recompose_extract (u : Unit16) : recompose (extract u) = u := by
  have join (start len below : Nat) :
      u.extractLsb' (start + len) below ++ u.extractLsb' start len = u.extractLsb' start (below + len) :=
    BitVec.extractLsb'_append_extractLsb'_eq_extractLsb' rfl
  calc recompose (extract u)
    _ = u.extractLsb' 0 16 := by
        dsimp only [recompose, extract]
        rw [join 9 1 6, join 8 1 7, join 6 2 8, join 3 3 10, join 0 3 13]
    _ = u := BitVec.extractLsb'_eq_self

/-- Settles O7: the formula, and the two inverse laws. -/
theorem recomposeInvertsExtract : Obligations.RecomposeInvertsExtract := by
  unfold Obligations.RecomposeInvertsExtract
  exact ⟨toNat_recompose, recompose_extract, extract_recompose⟩

end Sys2Proof
end

section
/-! PROOFS. Family `42_dispatcher_mov.md`: the dispatcher's order of tests (R101), direction and width of the operands
(R102, R103), the two units of a variant, and the four MOV forms (R104 to R107). -/

namespace Sys2Proof

open Sys2Proof.Machine

/-! ## Operands as canonical pairs -/

theorem Machine.widthOf_inj {w w' : BitVec 1} (h : widthOf w = widthOf w') : w = w' := by
  rw [← widthBit_widthOf w, h, widthBit_widthOf]

/-- A table entry is a register exactly at the register's canonical pair (R83). -/
theorem Machine.registerOf_eq_iff (f : BitVec 3) (w : Width) (r : Register) :
    registerOf f w = r ↔ f = regField r ∧ w = regWidth r := by
  constructor
  · rintro rfl
    exact ⟨(regField_registerOf f w).symm, (regWidth_registerOf f w).symm⟩
  · rintro ⟨rfl, rfl⟩
    exact registerOf_regField_regWidth r

/-- With d = 0 the form's source is the register of `reg` (R102). -/
theorem emitted_formOf_of_d_zero {e : EncodedInstruction} (hd : e.d = 0) :
    emitted (formOf e) = .movRegReg (registerOf e.reg (widthOf e.w)) (registerOf e.rm (widthOf e.w)) := by
  rw [emitted_formOf, if_pos hd]

/-- With d = 1 the form's source is the register of `rm` (R102). -/
theorem emitted_formOf_of_d_one {e : EncodedInstruction} (hd : e.d = 1) :
    emitted (formOf e) = .movRegReg (registerOf e.rm (widthOf e.w)) (registerOf e.reg (widthOf e.w)) := by
  rw [emitted_formOf, if_neg (by simp [hd])]

/-- The records that resolve, and the variant of each (R101). -/
theorem dispatch_eq_ok_iff (e : EncodedInstruction) (v : Variant) :
    dispatch e = .ok v ↔ e.opcode = movOpcode ∧ e.mode = registerDirect ∧ emitted (formOf e) = v := by
  rw [dispatch_eq]
  split_ifs <;> simp [*]

/-! ## The order of the tests -/

/-- Settles O10: the opcode decides first, then the mode; the two lookups of 3-bit fields never fail. -/
theorem dispatcherChecksInOrder : Obligations.DispatcherChecksInOrder := by
  unfold Obligations.DispatcherChecksInOrder
  intro e
  refine ⟨fun hop => ?_, fun hop hmode => ?_, fun hop hmode => ?_⟩
  · exact (dispatch_eq e).trans (if_neg hop)
  · exact (dispatch_eq e).trans ((if_pos hop).trans (if_neg hmode))
  · refine ⟨_, _, regLookup_toNat e.reg _, regLookup_toNat e.rm _, ?_⟩
    exact (dispatch_eq_ok_iff e _).mpr ⟨hop, hmode, emitted_formOf e⟩

/-! ## Direction and width -/

/-- The other direction names the same two operands the other way round (R102). -/
theorem emitted_formOf_not_d {e : EncodedInstruction} {s t : Register} (h : emitted (formOf e) = .movRegReg s t) :
    emitted (formOf { e with d := ~~~e.d }) = .movRegReg t s := by
  obtain hd | hd := BitVec.eq_zero_or_eq_one e.d
  · rw [emitted_formOf_of_d_zero hd] at h
    cases h
    exact emitted_formOf_of_d_one (by simp [hd])
  · rw [emitted_formOf_of_d_one hd] at h
    cases h
    exact emitted_formOf_of_d_zero (by simp [hd])

/-- Bit 9 of a unit is its `d` field and no other (R51). -/
theorem extract_xor_bit9 (u : Unit16) : extract (u ^^^ 0x0200) = { extract u with d := ~~~(extract u).d } := by
  have hflip (d : BitVec 1) : d ^^^ 1 = ~~~d := BitVec.xor_allOnes
  rw [EncodedInstruction.eq_iff]
  simpa [extract, BitVec.extractLsb'_xor] using hflip _

/-- Settles O11: the form's operands under each `d`, and bit 9 as the `d` field. -/
theorem directionBitSwapsOperands : Obligations.DirectionBitSwapsOperands := by
  unfold Obligations.DirectionBitSwapsOperands
  refine ⟨fun e v h => ?_, fun u s t h => ?_, fun _ _ => rfl⟩
  · obtain ⟨-, -, rfl⟩ := (dispatch_eq_ok_iff e v).mp h
    refine ⟨fun hd => ?_, fun hd => ?_⟩
    · rw [emitted_formOf_of_d_zero hd]
      exact ⟨regLookup_toNat _ _, regLookup_toNat _ _⟩
    · rw [emitted_formOf_of_d_one hd]
      exact ⟨regLookup_toNat _ _, regLookup_toNat _ _⟩
  · obtain ⟨hop, hmode, hv⟩ := (dispatch_eq_ok_iff (extract u) _).mp h
    rw [decode16, extract_xor_bit9]
    exact (dispatch_eq_ok_iff _ _).mpr ⟨hop, hmode, emitted_formOf_not_d hv⟩

/-- Both operands of a form are looked up with its one width flag (R103). -/
theorem regWidth_emitted_formOf (e : EncodedInstruction) :
    regWidth (sourceOf (emitted (formOf e))) = widthOf e.w ∧
      regWidth (destinationOf (emitted (formOf e))) = widthOf e.w := by
  rw [emitted_formOf]
  split_ifs <;> exact ⟨regWidth_registerOf _ _, regWidth_registerOf _ _⟩

/-- Settles O12: the widths of a form's operands are equal because each is that of `w`. -/
theorem operandsShareOneWidth : Obligations.OperandsShareOneWidth := by
  unfold Obligations.OperandsShareOneWidth
  intro u v h
  obtain ⟨-, -, rfl⟩ := (dispatch_eq_ok_iff (extract u) v).mp h
  obtain ⟨hsource, hdestination⟩ := regWidth_emitted_formOf (extract u)
  exact ⟨hsource, hdestination, by rw [Variant.wf, hsource, hdestination, beq_self_eq_true]⟩

/-! ## The two units of a variant -/

/-- The unit of a record is the one unit with its fields (R92). -/
theorem eq_recompose_iff (u : Unit16) (e : EncodedInstruction) : u = recompose e ↔ extract u = e := by
  constructor
  · rintro rfl
    exact extract_recompose e
  · rintro rfl
    exact (recompose_extract u).symm

/-- The record of a register-direct MOV with the direction, width, `reg` and `rm` given (R51, R53, R55). -/
def movRecord (d w : BitVec 1) (reg rm : BitVec 3) : EncodedInstruction :=
  { opcode := movOpcode, d := d, w := w, mode := registerDirect, reg := reg, rm := rm }

/-- A variant whose operands have the width of `w` is that of two records: `reg` names the source under d = 0 and the
destination under d = 1 (R102). -/
theorem dispatch_eq_movRegReg_iff {s t : Register} {w : BitVec 1} (hs : regWidth s = widthOf w)
    (ht : regWidth t = widthOf w) (e : EncodedInstruction) :
    dispatch e = .ok (.movRegReg s t) ↔
      e = movRecord 0 w (regField s) (regField t) ∨ e = movRecord 1 w (regField t) (regField s) := by
  have hw : widthOf e.w = widthOf w ↔ e.w = w := ⟨widthOf_inj, congrArg widthOf⟩
  rw [dispatch_eq_ok_iff, EncodedInstruction.eq_iff, EncodedInstruction.eq_iff]
  obtain hd | hd := BitVec.eq_zero_or_eq_one e.d
  · rw [emitted_formOf_of_d_zero hd, Variant.movRegReg.injEq, registerOf_eq_iff, registerOf_eq_iff, hs, ht, hw]
    grind [movRecord]
  · rw [emitted_formOf_of_d_one hd, Variant.movRegReg.injEq, registerOf_eq_iff, registerOf_eq_iff, hs, ht, hw]
    grind [movRecord]

/-- Settles O15: the units of the variant's two records, which differ in `d`. -/
theorem eachVariantHasExactlyTwoUnits : Obligations.EachVariantHasExactlyTwoUnits := by
  unfold Obligations.EachVariantHasExactlyTwoUnits
  intro s t w hs ht
  refine ⟨recompose (movRecord 0 w (regField s) (regField t)), recompose (movRecord 1 w (regField t) (regField s)),
    fun h => ?_, extract_recompose _, extract_recompose _, fun u => ?_⟩
  · rw [eq_recompose_iff, extract_recompose] at h
    exact absurd (congrArg EncodedInstruction.d h) (by simp [movRecord])
  · rw [eq_recompose_iff, eq_recompose_iff]
    exact dispatch_eq_movRegReg_iff hs ht (extract u)

/-! ## The meanings and the dispatcher -/

/-- Settles O18: every form emits its variant, which is the dispatcher's. -/
theorem meaningOfDecodedFormIsTheDispatchersVariant : Obligations.MeaningOfDecodedFormIsTheDispatchersVariant := by
  unfold Obligations.MeaningOfDecodedFormIsTheDispatchersVariant
  exact fun u i s h => ⟨emitted i, decode16_of_decodeUnit_ok h, exec_eq_emit i s⟩

/-! ## The bytes of a form -/

/-- A unit is made of its own two bytes (R34). -/
theorem joinBytes_extractLsb' (u : Unit16) : joinBytes (u.extractLsb' 8 8) (u.extractLsb' 0 8) = u :=
  (BitVec.extractLsb'_append_extractLsb'_eq_extractLsb' rfl).trans BitVec.extractLsb'_eq_self

@[simp] theorem decodeUnit_encodeUnit (i : Instr) : decodeUnit (encodeUnit i) = .ok i :=
  (decodeUnit_eq_ok_iff (encodeUnit i) i).mpr (extract_recompose (fieldsOf i))

/-- The bytes of an instruction decode to it, whatever follows them. -/
theorem decode_encode_append (i : Instr) (rest : List Byte) : decode (encode i ++ rest) = .ok i := by
  simp [encode, bytesOfUnit, decode, joinBytes_extractLsb']

theorem decode_encode (i : Instr) : decode (encode i) = .ok i :=
  decode_encode_append i []

/-- The two bytes of a record's unit: opcode, `d` and `w`, then mode, `reg` and `rm` (R34, R51). -/
theorem bytesOfUnit_recompose (e : EncodedInstruction) :
    bytesOfUnit (recompose e) = [e.opcode ++ e.d ++ e.w, e.mode ++ e.reg ++ e.rm] := by
  have hjoin : recompose e = joinBytes (e.opcode ++ e.d ++ e.w) (e.mode ++ e.reg ++ e.rm) := by
    rw [recompose, joinBytes, BitVec.append_assoc, BitVec.append_assoc, BitVec.append_assoc (x₁ := e.mode)]
    rfl
  rw [hjoin, bytesOfUnit_joinBytes]

/-- The second byte of a register-direct unit as a number. -/
theorem registerDirect_append_append (reg rm : BitVec 3) :
    registerDirect ++ reg ++ rm = BitVec.ofNat 8 (0xC0 + 8 * reg.toNat + rm.toNat) := by
  apply BitVec.eq_of_toNat_eq
  rw [BitVec.toNat_append, BitVec.toNat_append, ← Nat.shiftLeft_add_eq_or_of_lt rm.isLt,
    ← Nat.shiftLeft_add_eq_or_of_lt reg.isLt, BitVec.toNat_ofNat]
  have hmode : registerDirect.toNat = 3 := rfl
  have hreg := reg.isLt
  have hrm := rm.isLt
  rw [hmode, Nat.shiftLeft_eq, Nat.shiftLeft_eq]
  omega

/-- The first byte of a MOV unit as a number. -/
theorem movOpcode_append_append (d w : BitVec 1) :
    movOpcode ++ d ++ w = BitVec.ofNat 8 (0x88 + 2 * d.toNat + w.toNat) := by
  revert d w
  decide

/-- The bytes of an instruction: `d` and `w` above 0x88, then `reg` and `rm` above 0xC0 (R104 to R107). -/
theorem encode_eq (i : Instr) :
    encode i = [BitVec.ofNat 8 (0x88 + 2 * (fieldsOf i).d.toNat + (fieldsOf i).w.toNat),
      BitVec.ofNat 8 (0xC0 + 8 * (fieldsOf i).reg.toNat + (fieldsOf i).rm.toNat)] := by
  have hop : (fieldsOf i).opcode = movOpcode := by cases i <;> rfl
  have hmode : (fieldsOf i).mode = registerDirect := by cases i <;> rfl
  rw [encode, encodeUnit, bytesOfUnit_recompose, hop, hmode, movOpcode_append_append, registerDirect_append_append]

/-! ## The four forms -/

/-- Settles O22: the lookups, the row, the bytes and the emission of the form with d = 0 and w = 0. -/
theorem movRm8R8Result : Obligations.MovRm8R8Result := by
  unfold Obligations.MovRm8R8Result
  exact fun reg rm s => ⟨_, _, regLookup_toNat reg .byte, regLookup_toNat rm .byte, Laws.RowPattern.movRm8R8 reg rm,
    encode_eq _, decode_encode _, exec_eq_emit (.movRm8R8 reg rm) s⟩

/-- Settles O23: the same for d = 0 and w = 1. -/
theorem movRm16R16Result : Obligations.MovRm16R16Result := by
  unfold Obligations.MovRm16R16Result
  exact fun reg rm s => ⟨_, _, regLookup_toNat reg .word, regLookup_toNat rm .word,
    Laws.RowPattern.movRm16R16 reg rm, encode_eq _, decode_encode _,
    exec_eq_emit (.movRm16R16 reg rm) s⟩

/-- Settles O24: the form with d = 1 and w = 0, whose source is in `rm`. -/
theorem movR8Rm8Result : Obligations.MovR8Rm8Result := by
  unfold Obligations.MovR8Rm8Result
  exact fun reg rm s => ⟨_, _, regLookup_toNat rm .byte, regLookup_toNat reg .byte, Laws.RowPattern.movR8Rm8 reg rm,
    encode_eq _, decode_encode _, exec_eq_emit (.movR8Rm8 reg rm) s⟩

/-- Settles O25: the same for d = 1 and w = 1. -/
theorem movR16Rm16Result : Obligations.MovR16Rm16Result := by
  unfold Obligations.MovR16Rm16Result
  exact fun reg rm s => ⟨_, _, regLookup_toNat rm .word, regLookup_toNat reg .word,
    Laws.RowPattern.movR16Rm16 reg rm, encode_eq _, decode_encode _,
    exec_eq_emit (.movR16Rm16 reg rm) s⟩

end Sys2Proof
end

section
/-! PROOFS. Family `43_rendering.md`: the line of a variant (R120) and the names (R121), reading the operands back from
the line (R122), and the bytes at the sink (R125). -/

namespace Sys2Proof

open Sys2Proof.Machine

/-! ## The names -/

/-- The register names in the order of R121. -/
def registerNames : List Register :=
  [.al, .cl, .dl, .bl, .ah, .ch, .dh, .bh, .ax, .cx, .dx, .bx, .sp, .bp, .si, .di]

theorem mem_registerNames (r : Register) : r ∈ registerNames := by
  cases r <;> decide

/-- The sixteen names as ASCII bytes (R121). -/
theorem map_regName_registerNames : registerNames.map regName =
    [[0x41, 0x4C], [0x43, 0x4C], [0x44, 0x4C], [0x42, 0x4C], [0x41, 0x48], [0x43, 0x48], [0x44, 0x48], [0x42, 0x48],
     [0x41, 0x58], [0x43, 0x58], [0x44, 0x58], [0x42, 0x58], [0x53, 0x50], [0x42, 0x50], [0x53, 0x49], [0x44, 0x49]] :=
  rfl

/-- A name is two characters (R121). -/
@[simp] theorem Machine.length_regName (r : Register) : (regName r).length = 2 := by
  cases r <;> rfl

/-- A name names one register: the sixteen are pairwise different. -/
theorem Machine.regName_injective : Function.Injective regName := by
  have hnames : (registerNames.map regName).Nodup := by
    rw [map_regName_registerNames]
    decide
  exact fun r r' h => List.inj_on_of_nodup_map hnames (mem_registerNames r) (mem_registerNames r') h

/-! ## The line -/

/-- A line as R120 writes it, in ASCII bytes. -/
theorem Machine.render_movRegReg (s t : Register) :
    render (.movRegReg s t) = [0x4D, 0x4F, 0x56, 0x20] ++ regName t ++ [0x2C, 0x20] ++ regName s := rfl

/-- Settles O20: the format of a line, and the names of R121. -/
theorem renderedLineFormat : Obligations.RenderedLineFormat := by
  unfold Obligations.RenderedLineFormat
  exact ⟨render_movRegReg, map_regName_registerNames⟩

/-- Three characters, a space, two names of two, and two characters between them (R122). -/
theorem Machine.length_render (v : Variant) : (render v).length = 10 := by
  obtain ⟨s, t⟩ := v
  simp [render_movRegReg]

/-- The destination's name stands at positions 4-5 (R122). -/
theorem Machine.take_drop_four_render (v : Variant) : ((render v).drop 4).take 2 = regName (destinationOf v) := by
  obtain ⟨s, t⟩ := v
  have hdrop : (render (.movRegReg s t)).drop 4 = regName t ++ ([0x2C, 0x20] ++ regName s) := by
    simp [render_movRegReg]
  rw [hdrop, List.take_left' (length_regName t), destinationOf]

/-- The source's name stands at positions 8-9, the end of the line (R122). -/
theorem Machine.take_drop_eight_render (v : Variant) : ((render v).drop 8).take 2 = regName (sourceOf v) := by
  obtain ⟨s, t⟩ := v
  have hdrop : (render (.movRegReg s t)).drop 8 = regName s := by
    rw [render_movRegReg]
    exact List.drop_left' (by simp)
  rw [hdrop, List.take_of_length_le (length_regName s).le, sourceOf]

/-- A line is that of one variant: its two names are read back from their positions. -/
theorem Machine.render_injective : Function.Injective render := by
  intro v v' h
  have hdestination : destinationOf v = destinationOf v' := regName_injective (by
    rw [← take_drop_four_render, h, take_drop_four_render])
  have hsource : sourceOf v = sourceOf v' := regName_injective (by
    rw [← take_drop_eight_render, h, take_drop_eight_render])
  cases v
  cases v'
  exact congrArg₂ Variant.movRegReg hsource hdestination

/-! ## The variants of units -/

@[simp] theorem Machine.widthOf_widthBit (w : Width) : widthOf (widthBit w) = w := by
  cases w <;> rfl

/-- The variants that units decode to are those whose operands have one width (R84, R103, R107). -/
theorem exists_decode16_eq_ok_iff_wf (v : Variant) : (∃ u, decode16 u = .ok v) ↔ v.wf = true := by
  constructor
  · rintro ⟨u, hu⟩
    obtain ⟨-, -, hwf⟩ := operandsShareOneWidth u v hu
    exact hwf
  · obtain ⟨s, t⟩ := v
    intro hwf
    have hwidth : regWidth s = regWidth t := eq_of_beq hwf
    have hs : regWidth s = widthOf (widthBit (regWidth s)) := (widthOf_widthBit _).symm
    obtain ⟨u, _, -, -, -, hu⟩ := eachVariantHasExactlyTwoUnits s t _ hs (hwidth ▸ hs)
    exact ⟨u, (hu u).mpr (.inl rfl)⟩

/-- The registers of one width, as the Register Table lists them (R80). -/
def registerColumn (w : Width) : List Register := (registerTable w).toList

theorem nodup_registerColumn (w : Width) : (registerColumn w).Nodup := by
  cases w <;> decide

@[simp] theorem length_registerColumn (w : Width) : (registerColumn w).length = 8 := Vector.length_toList

/-- A column holds the registers of its width: each is the entry at its field. -/
@[simp] theorem mem_registerColumn_iff (r : Register) (w : Width) : r ∈ registerColumn w ↔ regWidth r = w := by
  rw [registerColumn, Vector.mem_toList_iff, Vector.mem_iff_getElem]
  constructor
  · rintro ⟨i, hi, rfl⟩
    exact regWidth_registerOf (BitVec.ofNatLT i hi) w
  · rintro rfl
    exact ⟨_, (regField r).isLt, registerOf_regField_regWidth r⟩

/-- The variants whose operands both have the width `w`. -/
def variantsOfWidth (w : Width) : List Variant :=
  (registerColumn w ×ˢ registerColumn w).map fun p => .movRegReg p.1 p.2

@[simp] theorem mem_variantsOfWidth_iff (s t : Register) (w : Width) :
    .movRegReg s t ∈ variantsOfWidth w ↔ regWidth s = w ∧ regWidth t = w := by
  simp [variantsOfWidth]

theorem nodup_variantsOfWidth (w : Width) : (variantsOfWidth w).Nodup :=
  ((nodup_registerColumn w).product (nodup_registerColumn w)).map fun _ _ h =>
    Prod.ext (congrArg sourceOf h) (congrArg destinationOf h)

@[simp] theorem length_variantsOfWidth (w : Width) : (variantsOfWidth w).length = 64 := by
  rw [variantsOfWidth, List.length_map, List.length_product, length_registerColumn]

/-- The variants of units, by width. -/
def unitVariants : List Variant := variantsOfWidth .byte ++ variantsOfWidth .word

theorem mem_unitVariants_iff (v : Variant) : v ∈ unitVariants ↔ ∃ u, decode16 u = .ok v := by
  obtain ⟨s, t⟩ := v
  rw [exists_decode16_eq_ok_iff_wf, unitVariants, List.mem_append, mem_variantsOfWidth_iff, mem_variantsOfWidth_iff,
    Variant.wf, sourceOf, destinationOf]
  cases regWidth s <;> cases regWidth t <;> decide

/-- No variant stands under both widths, and none twice under one. -/
theorem nodup_unitVariants : unitVariants.Nodup := by
  refine (nodup_variantsOfWidth .byte).append (nodup_variantsOfWidth .word) fun v hbyte hword => ?_
  obtain ⟨s, t⟩ := v
  rw [mem_variantsOfWidth_iff] at hbyte hword
  cases hbyte.1.symm.trans hword.1

/-- Eight sources and eight destinations of each width (R122). -/
theorem length_unitVariants : unitVariants.length = 128 := by
  rw [unitVariants, List.length_append, length_variantsOfWidth, length_variantsOfWidth]

/-- The lines of the variants of units are the lines of decodable units. -/
theorem mem_map_render_unitVariants_iff (t : Text) :
    t ∈ unitVariants.map render ↔ ∃ u v, decode16 u = .ok v ∧ render v = t := by
  simp only [List.mem_map, mem_unitVariants_iff]
  constructor
  · rintro ⟨v, ⟨u, hu⟩, ht⟩
    exact ⟨u, v, hu, ht⟩
  · rintro ⟨u, v, hu, ht⟩
    exact ⟨v, ⟨u, hu⟩, ht⟩

/-- Settles O21: the names at their places, and the lines of the variants of units, which rendering keeps apart. -/
theorem renderedLinesAreTenBytesAndDistinct : Obligations.RenderedLinesAreTenBytesAndDistinct := by
  unfold Obligations.RenderedLinesAreTenBytesAndDistinct
  refine ⟨fun v => ⟨length_render v, take_drop_four_render v, take_drop_eight_render v⟩,
    fun v v' h => render_injective h, unitVariants.map render, nodup_unitVariants.map render_injective, ?_,
    mem_map_render_unitVariants_iff⟩
  rw [List.length_map, length_unitVariants]

/-! ## The bytes at the sink -/

/-- The bytes at the sink come from the lines alone. -/
theorem Machine.State.sinkBytes_eq_of_out_eq {s t : State} (h : s.out = t.out) (c : Config) :
    s.sinkBytes c = t.sinkBytes c := by
  rw [State.sinkBytes, State.sinkBytes, h]

/-- The sink puts its terminator after the line it is handed. -/
theorem Machine.State.sinkBytes_emit (s : State) (v : Variant) (c : Config) :
    (s.emit v).sinkBytes c = s.sinkBytes c ++ (render v ++ c.lineTerminator) := by
  rw [State.sinkBytes, State.emit_out, List.flatMap_append, List.flatMap_singleton, State.sinkBytes]

/-- Settles O55: an emission appends one line, a rejection leaves the lines as they are. -/
theorem sinkAppendsItsTerminator : Obligations.SinkAppendsItsTerminator := by
  unfold Obligations.SinkAppendsItsTerminator
  exact fun c s => ⟨fun v => s.sinkBytes_emit v c, fun r => State.sinkBytes_eq_of_out_eq (s.reject_out r) c, rfl⟩

end Sys2Proof
end

section
/-! PROOFS. Family `44_decode_loop.md`: the step by what its pull answers (R130 to R135), the result of a run from reset
and its step bound (R137, R186). -/

namespace Sys2Proof

open Sys2Proof.Machine

/-! ## The decoder on the two bytes of a unit -/

/-- The decoder accepts a pair of bytes whose unit it accepts. -/
theorem decode_pair_of_decodeUnit_ok {b0 b1 : Byte} {i : Instr} (h : decodeUnit (joinBytes b0 b1) = .ok i) :
    decode [b0, b1] = .ok i := by
  simp [decode, h]

/-- The decoder rejects a pair of bytes with the dispatcher's fault and the unit (R157). -/
theorem decode_pair_of_decode16_error {b0 b1 : Byte} {f : DecodeFault} (h : decode16 (joinBytes b0 b1) = .error f) :
    decode [b0, b1] = .error (.decodeFault f (joinBytes b0 b1)) := by
  simp [decode, (decodeUnit_error_iff _ _).mpr h]

/-- A unit the dispatcher resolves is an instruction that emits the dispatcher's variant (R109). -/
theorem exists_decodeUnit_ok_of_decode16_ok {u : Unit16} {v : Variant} (h : decode16 u = .ok v) :
    ∃ i, decodeUnit u = .ok i ∧ emitted i = v :=
  ⟨formOf (extract u), (decodeUnit_ok_iff u _).mpr ⟨⟨v, h⟩, rfl⟩, (eq_emitted_of_dispatch_ok h).symm⟩

/-- FAULT_UNIT of a truncation holds the lone byte in its upper half (R134). -/
theorem truncatedUnit_eq (b : Byte) : truncatedUnit b = BitVec.ofNat 16 (b.toNat * 256) := by
  apply BitVec.eq_of_toNat_eq
  have hb : b.toNat < 256 := b.isLt
  rw [truncatedUnit, toNat_joinBytes, BitVec.toNat_ofNat, Nat.mod_eq_of_lt (by omega)]
  exact Nat.add_zero _

end Sys2Proof

namespace Sys2Proof.Machine

open Sys2Proof

/-! ## What a pull answers, by the bytes left -/

/-- A pull answers as many bytes as are left, two at most (R31). -/
theorem Memory.length_pull {m : Memory} (h : m.isStream = true) (pos : Nat) :
    (m.pull pos).length = min 2 (m.size - pos) := by
  rw [Memory.pull_eq_take_drop h, List.length_take, List.length_drop, Memory.length_bytes]

/-- A pull answers the two bytes that lie at `pos` and `pos + 1`. -/
theorem Memory.pull_of_readBytes {m : Memory} (h : m.isStream = true) {pos : Nat} {b0 b1 : Byte}
    (h0 : m.readByte pos = some b0) (h1 : m.readByte (pos + 1) = some b1) : m.pull pos = [b0, b1] := by
  rw [Memory.pull_eq_readBytes h, h0, h1]
  rfl

/-- A pull at the last byte answers that byte alone. -/
theorem Memory.pull_of_readByte_last {m : Memory} (h : m.isStream = true) {pos : Nat} {b : Byte}
    (hb : m.readByte pos = some b) (hlast : m.size ≤ pos + 1) : m.pull pos = [b] := by
  rw [Memory.pull_eq_readBytes h, hb, Memory.readByte_of_size_le h hlast]
  rfl

/-- A pull is empty exactly from the end of the stream on (R133). -/
theorem Memory.pull_eq_nil_iff {m : Memory} (h : m.isStream = true) (pos : Nat) : m.pull pos = [] ↔ m.size ≤ pos := by
  rw [← List.length_eq_zero_iff, Memory.length_pull h]
  omega

/-! ## The step, by what the pull answers -/

section

variable {s : State} (hrun : s.status = .run) (hs : s.stream.isStream = true)

include hrun hs

/-- The step on a full unit that decodes (R131). -/
theorem step_of_fetch_ok {b0 b1 : Byte} {v : Variant} (hf : s.fetch = [b0, b1])
    (hv : decode16 (joinBytes b0 b1) = .ok v) : step s = .next (s.emit v) := by
  obtain ⟨i, hi, rfl⟩ := exists_decodeUnit_ok_of_decode16_ok hv
  exact step_of_decode_ok hrun hs (hf ▸ decode_pair_of_decodeUnit_ok hi)

/-- The step on a full unit that faults (R132). -/
theorem step_of_fetch_error {b0 b1 : Byte} {f : DecodeFault} (hf : s.fetch = [b0, b1])
    (he : decode16 (joinBytes b0 b1) = .error f) : step s = .next (s.takeFault f (joinBytes b0 b1)) :=
  step_of_decode_error hrun hs (r := .decodeFault f _) (hf ▸ decode_pair_of_decode16_error he)

/-- The step on an empty pull (R133). -/
theorem step_of_fetch_nil (hf : s.fetch = []) : step s = .next s.endRun :=
  step_of_decode_error hrun hs (r := .endOfStream) (by rw [hf]; rfl)

/-- The step on a lone byte (R134). -/
theorem step_of_fetch_singleton {b : Byte} (hf : s.fetch = [b]) :
    step s = .next (s.takeFault .truncatedInstruction (BitVec.ofNat 16 (b.toNat * 256))) := by
  rw [← truncatedUnit_eq]
  exact step_of_decode_error hrun hs (r := .decodeFault .truncatedInstruction (truncatedUnit b)) (by rw [hf]; rfl)

end

/-- An emission does not write STATUS. -/
theorem State.emit_eq_of_run {s : State} (hrun : s.status = .run) (v : Variant) :
    s.emit v = { s with
      out := s.out ++ [{ variant := v, text := render v }], pos := s.pos + 2, status := .run } := by
  rw [← hrun, State.emit]

/-! ## The obligations on one step -/

/-- Settles O30: the pull answers the two bytes read, which decode to `i`, and a step adds nothing to `exec i`. -/
theorem stepRunsTheDecodedInstruction : Obligations.StepRunsTheDecodedInstruction := by
  unfold Obligations.StepRunsTheDecodedInstruction
  intro s b0 b1 i hrun hs h0 h1 hi
  have hf : s.fetch = [b0, b1] := Memory.pull_of_readBytes hs h0 h1
  rw [step_of_decode_ok hrun hs (hf ▸ decode_pair_of_decodeUnit_ok hi), exec_eq_emit]

/-- Settles O31: the effect is the emission of `v`, which leaves STATUS at RUN. -/
theorem stepEmitsADecodedUnit : Obligations.StepEmitsADecodedUnit := by
  unfold Obligations.StepEmitsADecodedUnit
  intro s b0 b1 v hrun hs hf hv
  rw [step_of_fetch_ok hrun hs hf hv, State.emit_eq_of_run hrun]

/-- Settles O32: the effect is fault entry with the unit. -/
theorem stepFaultsOnAnUndecodableUnit : Obligations.StepFaultsOnAnUndecodableUnit := by
  unfold Obligations.StepFaultsOnAnUndecodableUnit
  exact fun s b0 b1 f hrun hs => step_of_fetch_error hrun hs

/-- Settles O33: the effect is the end of the run; an empty pull means `L ≤ pos`, and the invariant bounds
`pos` by `L`. -/
theorem stepEndsTheRunOnAnEmptyPull : Obligations.StepEndsTheRunOnAnEmptyPull := by
  unfold Obligations.StepEndsTheRunOnAnEmptyPull
  refine ⟨fun s => step_of_fetch_nil, fun s hs => Memory.pull_eq_nil_iff hs s.pos, fun s hinv hnil => ?_⟩
  have hend : s.pos = s.stream.size :=
    Nat.le_antisymm hinv.pos_le ((Memory.pull_eq_nil_iff hinv.stream_ok s.pos).mp hnil)
  exact ⟨hend, hend ▸ hinv.pos_even⟩

/-- Settles O34: the effect is fault entry with the lone byte; its pull is one byte long, so one byte is left. -/
theorem stepFaultsOnATruncatedUnit : Obligations.StepFaultsOnATruncatedUnit := by
  unfold Obligations.StepFaultsOnATruncatedUnit
  refine ⟨fun s b hrun hs => step_of_fetch_singleton hrun hs, rfl, fun s b hinv hb => ?_⟩
  have hlen := Memory.length_pull hinv.stream_ok s.pos
  have heven := hinv.pos_even
  rw [hb, List.length_singleton] at hlen
  omega

/-! ## The end of a run -/

/-- Settles O35: an ended block stays as it is, by induction on the number of steps, and reset sets STATUS to RUN. -/
theorem endedBlockNeverChanges : Obligations.EndedBlockNeverChanges := by
  unfold Obligations.EndedBlockNeverChanges
  exact ⟨fun s k h => run_of_ended h k, State.applyReset_status⟩

/-- Settles O48: each step in RUN ends the run or passes two of the bytes left. -/
theorem runEndsWithinTheStepBound : Obligations.RunEndsWithinTheStepBound := by
  unfold Obligations.RunEndsWithinTheStepBound
  exact fun s => exists_run_ended

/-! ## The run over decodable units -/

/-- The state of a run from launch when units that decode to `vs` lie behind it: R131, once for each of them. -/
def afterUnits (bs : List Byte) (vs : List Variant) : State :=
  { State.launch bs with pos := 2 * vs.length, out := vs.map lineOf }

/-- One unit more is one emission more (R131). -/
theorem emit_afterUnits (bs : List Byte) (vs : List Variant) (v : Variant) :
    (afterUnits bs vs).emit v = afterUnits bs (vs ++ [v]) := by
  simp [afterUnits, State.emit, lineOf, Nat.mul_add]

/-- Two bytes make a full unit; a last odd byte makes none (R137). -/
theorem length_unitsOf : ∀ bs : List Byte, (unitsOf bs).length = bs.length / 2
  | [] | [_] => by simp [unitsOf]
  | b0 :: b1 :: bs => by
    rw [unitsOf, List.length_cons, length_unitsOf bs, List.length_cons, List.length_cons]
    omega

/-- The next pull after `vs.length` units answers the bytes of the unit with that index. -/
theorem fetch_afterUnits_of_getElem?_unitsOf {bs : List Byte} {vs : List Variant} {u : Unit16}
    (hu : (unitsOf bs)[vs.length]? = some u) :
    ∃ b0 b1, (afterUnits bs vs).fetch = [b0, b1] ∧ u = joinBytes b0 b1 := by
  obtain ⟨b0, b1, h0, h1, rfl⟩ := bytes_of_getElem?_unitsOf hu
  rw [← Memory.readByte_ofBytes] at h0 h1
  exact ⟨b0, b1, Memory.pull_of_readBytes (Memory.isStream_ofBytes bs) h0 h1, rfl⟩

/-- The step at a unit that decodes passes it. -/
theorem step_afterUnits_of_ok {bs : List Byte} {vs : List Variant} {u : Unit16} {v : Variant}
    (hu : (unitsOf bs)[vs.length]? = some u) (hv : decode16 u = .ok v) :
    step (afterUnits bs vs) = .next (afterUnits bs (vs ++ [v])) := by
  obtain ⟨b0, b1, hf, rfl⟩ := fetch_afterUnits_of_getElem?_unitsOf hu
  rw [step_of_fetch_ok rfl (Memory.isStream_ofBytes bs) hf hv, emit_afterUnits]

/-- The step at a unit that faults stops there. -/
theorem step_afterUnits_of_error {bs : List Byte} {vs : List Variant} {u : Unit16} {f : DecodeFault}
    (hu : (unitsOf bs)[vs.length]? = some u) (he : decode16 u = .error f) :
    step (afterUnits bs vs) = .next ((afterUnits bs vs).takeFault f u) := by
  obtain ⟨b0, b1, hf, rfl⟩ := fetch_afterUnits_of_getElem?_unitsOf hu
  exact step_of_fetch_error rfl (Memory.isStream_ofBytes bs) hf he

/-- The step at the end of the stream ends the run. -/
theorem step_afterUnits_of_length_eq {bs : List Byte} {vs : List Variant} (hlen : bs.length = 2 * vs.length) :
    step (afterUnits bs vs) = .next (afterUnits bs vs).endRun := by
  have hs := Memory.isStream_ofBytes bs
  have hend : (Memory.ofBytes bs).size ≤ 2 * vs.length := by rw [Memory.size_ofBytes, hlen]
  exact step_of_fetch_nil rfl hs (Memory.pull_of_size_le hs hend)

/-- The step at a lone last byte faults as truncated. -/
theorem step_afterUnits_of_lone_byte {front : List Byte} {b : Byte} {vs : List Variant}
    (hlen : front.length = 2 * vs.length) :
    step (afterUnits (front ++ [b]) vs) = .next ((afterUnits (front ++ [b]) vs).takeFault .truncatedInstruction
      (BitVec.ofNat 16 (b.toNat * 256))) := by
  have hs := Memory.isStream_ofBytes (front ++ [b])
  have hb : (Memory.ofBytes (front ++ [b])).readByte (2 * vs.length) = some b := by
    rw [Memory.readByte_ofBytes, ← hlen, List.getElem?_concat_length]
  have hlast : (Memory.ofBytes (front ++ [b])).size ≤ 2 * vs.length + 1 := by
    rw [Memory.size_ofBytes, List.length_append, hlen, List.length_singleton]
  exact step_of_fetch_singleton rfl hs (Memory.pull_of_readByte_last hs hb hlast)

/-- Decodings of all units of a byte sequence are one per two bytes, and those of its first units. -/
theorem length_and_take_of_decodings {R : Unit16 → Variant → Prop} {bs : List Byte} {vs : List Variant}
    (h : List.Forall₂ R (unitsOf bs) vs) :
    vs.length = bs.length / 2 ∧ List.Forall₂ R ((unitsOf bs).take vs.length) vs := by
  refine ⟨by rw [← length_unitsOf, h.length_eq], ?_⟩
  rwa [List.take_of_length_le h.length_eq.le]

/-- A run goes on by the step from where it got to. -/
theorem ReachedFrom.succ {bs : List Byte} {n : Nat} {s t : State} (h : ReachedFrom bs n s) (hstep : step s = .next t) :
    ReachedFrom bs (n + 1) t :=
  (run_add h 1).trans (run_succ_of_next hstep 0)

section

variable {bs : List Byte} {vs : List Variant}
  (h : List.Forall₂ (fun u v => decode16 u = .ok v) ((unitsOf bs).take vs.length) vs)

include h

/-- The `k`-th decoding is that of the `k`-th unit. -/
theorem exists_unit_of_decodings {k : Nat} (hk : k < vs.length) :
    ∃ u, (unitsOf bs)[k]? = some u ∧ decode16 u = .ok vs[k] := by
  have hlines : List.Forall₂ lineDecodes ((unitsOf bs).take (vs.map lineOf).length) (vs.map lineOf) := by
    rw [List.length_map, List.forall₂_map_right_iff]
    exact h.imp fun _ _ hv => ⟨hv, rfl⟩
  have hline : (vs.map lineOf)[k]? = some (lineOf vs[k]) := by rw [List.getElem?_map, List.getElem?_eq_getElem hk]; rfl
  obtain ⟨u, hu, hv, -⟩ := getElem?_of_forall₂_lineDecodes hlines hline
  exact ⟨u, hu, hv⟩

/-- One step per unit: after `k` steps the first `k` units are passed. -/
theorem reachedFrom_afterUnits {k : Nat} (hk : k ≤ vs.length) : ReachedFrom bs k (afterUnits bs (vs.take k)) := by
  induction k with
  | zero => rfl
  | succ k ih =>
    obtain ⟨u, hu, hv⟩ := exists_unit_of_decodings h hk
    have hlen : (vs.take k).length = k := List.length_take_of_le (by omega)
    rw [← List.take_concat_get' vs k hk]
    exact (ih (by omega)).succ (step_afterUnits_of_ok (hlen.symm ▸ hu) hv)

/-- The step after the last of the decoded units gives the run's result, and no earlier step leaves RUN. -/
theorem reachedFrom_of_step_afterUnits {t : State} (hstep : step (afterUnits bs vs) = .next t) :
    ReachedFrom bs (vs.length + 1) t ∧ ∀ k, k ≤ vs.length → ∃ u, ReachedFrom bs k u ∧ u.status = .run := by
  refine ⟨?_, fun k hk => ⟨_, reachedFrom_afterUnits h hk, rfl⟩⟩
  have hlast := reachedFrom_afterUnits h le_rfl
  rw [List.take_length] at hlast
  exact hlast.succ hstep

end

/-- Settles O47: the run passes the decoded units, then takes the step at what lies behind them: a unit that faults, no
byte, or a lone byte. -/
theorem runOutcome : Obligations.RunOutcome := by
  unfold Obligations.RunOutcome
  refine fun bs vs => ⟨fun u f hu h he => ?_, fun heven h => ?_, fun front b hbs hodd h => ?_⟩
  · exact reachedFrom_of_step_afterUnits h (step_afterUnits_of_error hu he)
  · obtain ⟨hcount, htake⟩ := length_and_take_of_decodings h
    have hpos : bs.length = 2 * vs.length := by omega
    rw [← hcount, hpos]
    exact reachedFrom_of_step_afterUnits htake (step_afterUnits_of_length_eq hpos)
  · subst hbs
    obtain ⟨hcount, htake⟩ := length_and_take_of_decodings h
    have hpos : (front ++ [b]).length - 1 = 2 * vs.length := by omega
    rw [← hcount, hpos]
    rw [List.length_append, List.length_singleton, Nat.add_sub_cancel] at hpos
    exact reachedFrom_of_step_afterUnits htake (step_afterUnits_of_lone_byte hpos)

end Sys2Proof.Machine
end

section
/-! PROOFS. Family `60_exceptions.md`: the order of the faults (R154 to R156), fault entry (R157) and precise faults
(R158). -/

namespace Sys2Proof.Machine

open Sys2Proof

/-! ## Precise faults -/

/-- Two bytes lie behind `pos` for each line (R19). -/
theorem State.Inv.pos_eq {s : State} (h : s.Inv) : s.pos = 2 * s.out.length := by
  have heven := h.pos_even
  have hlen := h.out_length
  omega

/-- Settles O43: the invariant at the end of the run holds the record and the lines, and each effect of a step keeps the
lines. -/
theorem faultsArePrecise : Obligations.FaultsArePrecise := by
  unfold Obligations.FaultsArePrecise
  refine ⟨fun bs n t h hfault => ?_, fun _ _ => out_prefix_of_step⟩
  obtain ⟨hrecord, -⟩ := h.inv.record_holds hfault
  have hcount : t.faultPos = 2 * t.out.length := hrecord.trans h.inv.pos_eq
  have hlines := h.inv.out_decodes
  rw [h.stream_eq, Memory.bytes_ofBytes] at hlines
  refine ⟨hcount, hrecord.symm, ?_⟩
  rwa [hcount, Nat.mul_div_cancel_left _ Nat.two_pos]

/-! ## Fault entry -/

/-- What the host reads after fault entry (R157). -/
@[simp] theorem State.hostView_takeFault (s : State) (f : DecodeFault) (info : Unit16) :
    (s.takeFault f info).hostView =
      { status := 2, cause := faultCode f, faultUnit := info, faultPos := s.pos, pos := s.pos } := rfl

/-- The offending opcode bits are the opcode field of FAULT_UNIT (R18, R51). -/
theorem offendingOpcode_eq (s : State) : offendingOpcode s = (extract s.faultUnit).opcode := rfl

/-- The offending mode bits are the mode field of FAULT_UNIT (R18, R51). -/
theorem offendingMode_eq (s : State) : offendingMode s = (extract s.faultUnit).mode := rfl

/-- Settles O40: the host's view after fault entry, what fault entry leaves, and the fields of the recorded unit. -/
theorem faultEntryWritesTheRecord : Obligations.FaultEntryWritesTheRecord := by
  unfold Obligations.FaultEntryWritesTheRecord
  intro s f info
  refine ⟨s.hostView_takeFault f info, s.takeFault_out f info, s.takeFault_stream f info, ?_, ?_⟩
  · rw [offendingOpcode_eq, State.takeFault_faultUnit]
  · rw [offendingMode_eq, State.takeFault_faultUnit]

end Sys2Proof.Machine

namespace Sys2Proof

open Sys2Proof.Machine

/-! ## The order of the faults -/

/-- The unit recorded for a lone byte holds it in [15:8] and zero below (R154). -/
theorem extractLsb'_truncatedUnit (b : Byte) :
    (truncatedUnit b).extractLsb' 8 8 = b ∧ (truncatedUnit b).extractLsb' 0 8 = 0 := by
  have hbytes : bytesOfUnit (truncatedUnit b) = [b, 0] := bytesOfUnit_joinBytes b 0
  simpa [bytesOfUnit] using hbytes

/-- What the unit of two bytes decodes to, by the opcode bits of the first and the mode bits of the second (R101). -/
theorem decode16_joinBytes (b0 b1 : Byte) :
    decode16 (joinBytes b0 b1) =
      if b0.extractLsb' 2 6 = movOpcode then
        if b1.extractLsb' 6 2 = registerDirect then .ok (emitted (formOf (extract (joinBytes b0 b1))))
        else .error .unsupportedAddressingMode
      else .error .unsupportedOpcode := by
  rw [decode16_eq, extract_joinBytes]

/-- Settles O42: the number of bytes decides first, then the opcode, then the mode. -/
theorem faultPriority : Obligations.FaultPriority := by
  unfold Obligations.FaultPriority
  refine ⟨rfl, fun b => ⟨truncatedUnit b, rfl, extractLsb'_truncatedUnit b⟩,
    fun b0 b1 => ⟨fun hop => ?_, fun hop hmode => ?_⟩⟩
  · exact decode_pair_of_decode16_error ((decode16_joinBytes b0 b1).trans (if_neg hop))
  · exact decode_pair_of_decode16_error ((decode16_joinBytes b0 b1).trans ((if_pos hop).trans (if_neg hmode)))

end Sys2Proof
end

section
/-! PROOFS. Family `70_reset_and_hazards.md`: the streams whose run ends DONE (R184), and a stream entered one byte
late (R182, program P7). -/

namespace Sys2Proof

open Sys2Proof.Machine

/-! ## The units that decode, by R58's joint mask -/

/-- A register-direct MOV unit decodes to the variant its form emits (R58). -/
theorem decode16_of_jointMask {u : Unit16} (h : u &&& 0xFCC0 = 0x88C0) :
    decode16 u = .ok (emitted (formOf (extract u))) := by
  obtain ⟨hop, hmode⟩ := (and_jointMask_eq_iff u).mp h
  rw [decode16_eq, if_pos hop, if_pos hmode]

/-- Only a register-direct MOV unit decodes (R58). -/
theorem jointMask_of_decode16_ok {u : Unit16} {v : Variant} (h : decode16 u = .ok v) : u &&& 0xFCC0 = 0x88C0 :=
  (and_jointMask_eq_iff u).mpr ((exists_decode16_ok_iff u).mp ⟨v, h⟩)

/-- The second byte of a MOV unit cannot be the first byte of one: its upper bits are the mode's 11, where an opcode
field of 100010 begins with 10. -/
theorem decode16_second_byte_first {b0 b1 : Byte} (h : joinBytes b0 b1 &&& 0xFCC0 = 0x88C0) (b2 : Byte) :
    decode16 (joinBytes b1 b2) = .error .unsupportedOpcode := by
  obtain ⟨-, hmode⟩ := (and_jointMask_eq_iff _).mp h
  rw [extract_joinBytes] at hmode
  have hmode_ne_opcode : ∀ b : Byte, b.extractLsb' 6 2 = registerDirect → b.extractLsb' 2 6 ≠ movOpcode := by decide
  rw [decode16_joinBytes, if_neg (hmode_ne_opcode b1 hmode)]

end Sys2Proof

namespace Sys2Proof.Machine

open Sys2Proof

/-! ## The run up to a unit that is no MOV -/

/-- Every unit that has its line is a register-direct MOV. -/
theorem ReachedFrom.jointMask_of_lt_length_out {bs : List Byte} {n k : Nat} {t : State} {u : Unit16}
    (h : ReachedFrom bs n t) (hk : k < t.out.length) (hu : (unitsOf bs)[k]? = some u) : u &&& 0xFCC0 = 0x88C0 := by
  have hlines := h.inv.out_decodes
  rw [h.stream_eq, Memory.bytes_ofBytes] at hlines
  obtain ⟨u', hu', hdec, -⟩ := getElem?_of_forall₂_lineDecodes hlines (List.getElem?_eq_getElem hk)
  obtain rfl : u = u' := Option.some.inj (hu.symm.trans hu')
  exact jointMask_of_decode16_ok hdec

/-- A run that is DONE has passed the whole stream (R133). -/
theorem ReachedFrom.length_eq_of_done {bs : List Byte} {n : Nat} {t : State} (h : ReachedFrom bs n t)
    (hdone : t.status = .done) : bs.length = 2 * t.out.length := by
  rw [← h.inv.pos_eq, h.inv.done_at_end hdone, h.stream_eq, Memory.size_ofBytes]

/-- Units that are all MOVs have their decodings (R58). -/
theorem forall₂_decode16_of_jointMask {us : List Unit16} (h : ∀ u ∈ us, u &&& 0xFCC0 = 0x88C0) :
    List.Forall₂ (fun u v => decode16 u = .ok v) us (us.map fun u => emitted (formOf (extract u))) :=
  List.forall₂_map_right_iff.mpr (List.forall₂_same.mpr fun u hu => decode16_of_jointMask (h u hu))

/-- Settles O49: a clean end has passed every unit, and a unit passed has its line, which only a MOV gets. -/
theorem cleanEndIffEveryUnitIsAMov : Obligations.CleanEndIffEveryUnitIsAMov := by
  unfold Obligations.CleanEndIffEveryUnitIsAMov
  refine fun bs => ⟨⟨?_, ?_⟩, fun k u hu hne n t h => ?_⟩
  · rintro ⟨n, t, h, hdone⟩
    have hlen := h.length_eq_of_done hdone
    refine ⟨by omega, fun u hu => ?_⟩
    obtain ⟨k, hk⟩ := List.mem_iff_getElem?.mp hu
    obtain ⟨hlt, -⟩ := List.getElem?_eq_some_iff.mp hk
    rw [length_unitsOf] at hlt
    exact h.jointMask_of_lt_length_out (by omega) hk
  · rintro ⟨heven, hmov⟩
    obtain ⟨-, hend, -⟩ := runOutcome bs _
    obtain ⟨hreached, -⟩ := hend heven (forall₂_decode16_of_jointMask hmov)
    exact ⟨_, _, hreached, rfl⟩
  · have hcount : t.out.length ≤ k := Nat.le_of_not_lt fun hk => hne (h.jointMask_of_lt_length_out hk hu)
    exact ⟨by rw [h.inv.pos_eq]; omega, hcount⟩

/-! ## A stream entered one byte late -/

/-- Settles O52: the lone byte left of a one-unit stream is truncated; otherwise the first pull begins with the second
byte of a MOV unit, which is no opcode. -/
theorem streamEnteredOneByteLateFaultsAtOnce : Obligations.StreamEnteredOneByteLateFaultsAtOnce := by
  unfold Obligations.StreamEnteredOneByteLateFaultsAtOnce
  intro b bs hodd hmov
  obtain ⟨hfault, -, hlone⟩ := runOutcome bs []
  match bs with
  | [] => cases hodd
  | [b1] =>
    obtain ⟨hreached, -⟩ := hlone [] b1 rfl rfl .nil
    rw [List.length_singleton] at hreached
    exact ⟨_, hreached, rfl, rfl, rfl, rfl⟩
  | b1 :: b2 :: rest =>
    have hopcode := decode16_second_byte_first (hmov _ List.mem_cons_self) b2
    obtain ⟨hreached, -⟩ := hfault _ _ rfl .nil hopcode
    exact ⟨_, hreached, rfl, rfl, rfl, by simp⟩

end Sys2Proof.Machine
end

section
/-! PROOFS. Family `other`: the round trips of decoder and encoder (R50, R51), well-formed opcode tables (R52), placed
words, the frame of the forms, the refusal of a broken source (D20), the codes and binary forms the outside reads (R11,
R14, R16, R17, R122, R150), and the invariant at reset and launch (R180, R182). -/

namespace Sys2Proof

open Sys2Proof.Machine

/-! ## The round trips -/

/-- A unit read as a 16-bit table word has its own bytes (R34). -/
@[simp] theorem tableWordBytes_toNat (u : Unit16) : tableWordBytes 16 u.toNat = bytesOfUnit u := by
  rw [tableWordBytes, Nat.mod_eq_of_lt u.isLt, BitVec.ofNat_toNat, BitVec.setWidth_eq]

/-- A table word is an instruction when it is no longer than a unit and its bytes decode (R50). -/
theorem decodeTableWord_eq_some_iff (nbits w : Nat) (i : Instr) :
    decodeTableWord nbits w = some i ↔ nbits ≤ 16 ∧ decode (tableWordBytes nbits w) = .ok i := by
  rw [decodeTableWord]
  by_cases hn : nbits ≤ 16
  · rw [if_pos hn]
    cases decode (tableWordBytes nbits w) <;> simp [hn]
  · simp [hn]

/-- Settles O16: the fields of an instruction's unit are the instruction's, and a unit is made of its two bytes. -/
theorem decodeOfEncodeIsTheInstruction : Obligations.DecodeOfEncodeIsTheInstruction := by
  unfold Obligations.DecodeOfEncodeIsTheInstruction
  refine fun i => ⟨decodeUnit_encodeUnit i, decode_encode_append i, ?_⟩
  rw [decodeTableWord_eq_some_iff, tableWordBytes_toNat]
  exact ⟨le_rfl, decode_encode i⟩

/-- Settles O17: the unit has the instruction's fields, and a record is that of one unit. -/
theorem encodeOfDecodeIsTheUnit : Obligations.EncodeOfDecodeIsTheUnit := by
  unfold Obligations.EncodeOfDecodeIsTheUnit
  intro u i h
  exact ((eq_recompose_iff u (fieldsOf i)).mpr ((decodeUnit_eq_ok_iff u i).mp h)).symm

/-- Settles O19: the words of S7, S8 and P2 are encodings of their instructions; the two others are rejected for the
opcode bits of their first byte and the mode bits of their second. -/
theorem specWordsDecode : Obligations.SpecWordsDecode := by
  unfold Obligations.SpecWordsDecode
  obtain ⟨-, -, hpair⟩ := faultPriority
  refine ⟨decodeUnit_encodeUnit (.movRm8R8 0 4), decodeUnit_encodeUnit (.movRm16R16 3 1),
    decodeUnit_encodeUnit (.movR8Rm8 4 0), decodeUnit_encodeUnit (.movR16Rm16 5 4),
    decode_encode (.movRm16R16 1 2), decode_encode (.movR16Rm16 1 2), ?_, ?_⟩
  · exact (hpair 0xD9 0x89).1 (by decide)
  · exact (hpair 0x8B 0x07).2 (by decide) (by decide)

/-! ## Well-formed opcode tables -/

theorem opcodeTableWf_cons_iff (t : OpcodeEntry) (ts : List OpcodeEntry) :
    opcodeTableWf (t :: ts) = true ↔ t.wf = true ∧ (∀ t' ∈ ts, t.disjoint t' = true) ∧ opcodeTableWf ts = true := by
  simp [opcodeTableWf, and_assoc]

/-- Two entries that select one record are not disjoint: on the bits both masks keep, both patterns are the record's
unit (R52). -/
theorem disjoint_eq_false_of_entrySelects {t t' : OpcodeEntry} {e : EncodedInstruction}
    (ht : entrySelects t e = true) (ht' : entrySelects t' e = true) : t.disjoint t' = false := by
  rw [entrySelects, beq_iff_eq] at ht ht'
  have hbit : ∀ x a b : Bool, (((x && a) ^^ (x && b)) && (a && b)) = false := by decide
  have hagree : (t.pattern ^^^ t'.pattern) &&& (t.mask &&& t'.mask) = 0#16 := by
    rw [← ht, ← ht']
    ext i
    simpa only [BitVec.getElem_and, BitVec.getElem_xor, BitVec.getElem_zero] using hbit _ _ _
  rw [OpcodeEntry.disjoint, hagree]
  rfl

/-- Settles O9: behind an entry that selects the record no entry selects it. -/
theorem wellFormedTableSelectsAtMostOneEntry : Obligations.WellFormedTableSelectsAtMostOneEntry := by
  unfold Obligations.WellFormedTableSelectsAtMostOneEntry
  intro ts hwf e
  induction ts with
  | nil => exact Nat.zero_le 1
  | cons t ts ih =>
    obtain ⟨-, hdisjoint, hrest⟩ := (opcodeTableWf_cons_iff t ts).mp hwf
    by_cases ht : entrySelects t e = true
    · have hnone : ts.filter (entrySelects · e) = [] := List.filter_eq_nil_iff.mpr fun t' hmem ht' =>
        Bool.false_ne_true ((disjoint_eq_false_of_entrySelects ht ht').symm.trans (hdisjoint t' hmem))
      rw [List.filter_cons, if_pos ht, hnone, List.length_singleton]
    · rw [List.filter_cons, if_neg ht]
      exact ih hrest

end Sys2Proof

namespace Sys2Proof.Machine

open Sys2Proof

/-! ## Placed words -/

/-- Bytes placed inside a stream or at its end leave a stream. -/
theorem Memory.isStream_load {m : Memory} (h : m.isStream = true) {a : Nat} (ha : a ≤ m.size) (bs : List Byte) :
    (m.load a bs).isStream = true := by
  induction bs generalizing m a with
  | nil => exact h
  | cons b bs ih => exact ih (Memory.isStream_write h ha b) (Memory.lt_size_write h ha b)

/-- Two bytes placed in a stream are what a pull there answers (R31). -/
theorem Memory.pull_load_pair {m : Memory} (h : m.isStream = true) {a : Nat} (ha : a ≤ m.size) (b0 b1 : Byte) :
    (m.load a [b0, b1]).pull a = [b0, b1] := by
  refine Memory.pull_of_readBytes (Memory.isStream_load h ha [b0, b1]) ?_ ?_
  · rw [Memory.load, Memory.load, Memory.load, Memory.readByte_write, if_neg (by omega), Memory.readByte_write,
      if_pos rfl]
  · rw [Memory.load, Memory.load, Memory.load, Memory.readByte_write, if_pos rfl]

/-- Settles O39: the placed bytes are a stream's, and the pull at `pos` answers them. -/
theorem placedWordIsTheNextInstruction : Obligations.PlacedWordIsTheNextInstruction := by
  unfold Obligations.PlacedWordIsTheNextInstruction
  intro s nbits w i hinv hw
  obtain ⟨-, hd⟩ := (decodeTableWord_eq_some_iff nbits w i).mp hw
  have hstream : (s.withFetchWord nbits w).stream.isStream = true :=
    Memory.isStream_load hinv.stream_ok hinv.pos_le _
  have hfetch : (s.withFetchWord nbits w).fetch = tableWordBytes nbits w :=
    Memory.pull_load_pair hinv.stream_ok hinv.pos_le _ _
  rw [step_of_decode_ok rfl hstream (hfetch ▸ hd), exec_eq_emit]

/-! ## The frame of the forms -/

/-- Settles O26: every form emits, and an emission writes `out` and `pos` only. -/
theorem frameOfTheMovForms : Obligations.FrameOfTheMovForms := by
  unfold Obligations.FrameOfTheMovForms
  intro i s t h
  rw [exec_eq_emit] at h
  cases h
  refine ⟨rfl, rfl, rfl, rfl, fun _ => rfl, rfl, ?_, fun k hk => ?_⟩
  · rw [State.emit_out, List.length_append, List.length_singleton]
  · rw [State.emit_out, List.getElem?_append_left hk]

/-! ## The one refusal -/

/-- A step on a stream answers a next state. -/
theorem exists_step_next {s : State} (hs : s.stream.isStream = true) : ∃ t, step s = .next t := by
  obtain ⟨-, e⟩ | ⟨-, hbroken, -⟩ | ⟨_, -, -, -, e⟩ | ⟨_, -, -, -, e⟩ := step_cases s
  · exact ⟨_, e⟩
  · cases hs.symm.trans hbroken
  · exact ⟨_, e⟩
  · exact ⟨_, e⟩

/-- Settles O36: an ended block and a stream each give a next state, which is no refusal. -/
theorem stepRefusesOnlyABrokenSource : Obligations.StepRefusesOnlyABrokenSource := by
  unfold Obligations.StepRefusesOnlyABrokenSource
  refine fun s => ⟨⟨fun hrefused => ?_, fun ⟨hrun, hs⟩ => step_of_not_isStream hrun hs⟩, exists_step_next⟩
  constructor
  · by_contra hended
    cases (step_of_ended hended).symm.trans hrefused
  · refine Bool.eq_false_iff.mpr fun hs => ?_
    obtain ⟨t, hnext⟩ := exists_step_next hs
    cases hnext.symm.trans hrefused

/-! ## The codes the host reads -/

/-- STATUS never reads 3 (R17). -/
theorem statusCode_ne_three (st : Status) : statusCode st ≠ 3 := by
  cases st <;> decide

/-- Settles O41: each code is read off R17's and R150's lists, and the three values of STATUS leave out 3. -/
theorem causeAndStatusCodes : Obligations.CauseAndStatusCodes := by
  unfold Obligations.CauseAndStatusCodes
  exact ⟨rfl, rfl, rfl, rfl, rfl, rfl, rfl, rfl, statusCode_ne_three⟩

/-! ## The position counter -/

/-- A counter of `POS_W` bits shows `pos` while `pos` is below `2^POS_W` (R16). -/
theorem State.toNat_posCounter_of_lt {c : Config} {s : State} (h : s.pos < 2 ^ c.posW) :
    (s.posCounter c).toNat = s.pos := by
  rw [State.posCounter, BitVec.toNat_ofNat, Nat.mod_eq_of_lt h]

/-- `pos` never passes the end of the stream of the run (R16). -/
theorem ReachedFrom.pos_le_length {bs : List Byte} {n : Nat} {t : State} (h : ReachedFrom bs n t) :
    t.pos ≤ bs.length := by
  rw [← Memory.size_ofBytes, ← h.stream_eq]
  exact h.inv.pos_le

/-- Settles O54: `pos` is at most the stream's length, which the counter can show. -/
theorem positionCounterAgreesOnShortStreams : Obligations.PositionCounterAgreesOnShortStreams := by
  unfold Obligations.PositionCounterAgreesOnShortStreams
  exact fun c bs n t hshort h => State.toNat_posCounter_of_lt (h.pos_le_length.trans_lt hshort)

/-! ## The invariant at reset -/

/-- A reset leaves what a launch with the same stream gives (R180, R182). -/
theorem State.applyReset_eq_launch {s : State} (hs : s.stream.isStream = true) :
    s.applyReset = State.launch s.stream.bytes := by
  rw [State.launch, ← Memory.eq_ofBytes hs, State.applyReset]

/-- Settles O45: reset is the launch with the stream it leaves. -/
theorem invariantHoldsAtResetAndLaunch : Obligations.InvariantHoldsAtResetAndLaunch := by
  unfold Obligations.InvariantHoldsAtResetAndLaunch
  refine ⟨State.inv_launch [], State.inv_launch, fun s hs => ?_⟩
  rw [State.applyReset_eq_launch hs]
  exact State.inv_launch s.stream.bytes

/-! ## Binary forms -/

/-- The register of a 4-bit code: the code's bits are the width flag, then the field (R11). -/
theorem registerOf_extractLsb'_regId (r : Register) :
    registerOf ((regId r).extractLsb' 0 3) (widthOf ((regId r).extractLsb' 3 1)) = r := by
  rw [regId, BitVec.extractLsb'_append_eq_right, BitVec.extractLsb'_append_eq_left, widthOf_widthBit,
    registerOf_regField_regWidth]

theorem regId_injective : Function.Injective regId := by
  intro r r' h
  rw [← registerOf_extractLsb'_regId r, h, registerOf_extractLsb'_regId]

theorem variantCode_injective : Function.Injective variantCode := by
  rintro ⟨s, t⟩ ⟨s', t'⟩ h
  obtain ⟨-, hdestination, hsource⟩ := (VariantCode.mk.injEq ..).mp h
  rw [regId_injective hsource, regId_injective hdestination]

/-- One character more shifts the packed ones up by a byte (R122; the order is log entry 10). -/
theorem packText_concat (t : Text) (b : Byte) : packText (t ++ [b]) = packText t <<< 8 ||| b.setWidth 80 := by
  rw [packText, List.foldl_concat, packText]

/-- The lowest byte of a packed text is its last character. -/
theorem extractLsb'_zero_packText_concat (t : Text) (b : Byte) : (packText (t ++ [b])).extractLsb' 0 8 = b := by
  rw [packText_concat]
  ext j hj
  have hlow : j < 80 := by omega
  simp [hj, hlow]

/-- The bytes above the lowest are those of the text before the last character. -/
theorem extractLsb'_succ_packText_concat (t : Text) (b : Byte) {k : Nat} (hk : k + 1 < 10) :
    (packText (t ++ [b])).extractLsb' (8 * (k + 1)) 8 = (packText t).extractLsb' (8 * k) 8 := by
  rw [packText_concat]
  ext j hj
  have hin : 8 * (k + 1) + j < 80 := by omega
  have habove : ¬8 * (k + 1) + j < 8 := by omega
  have hbelow : 8 * (k + 1) + j - 8 = 8 * k + j := by omega
  simp [hin, habove, hbelow, BitVec.getLsbD_of_ge b _ (Nat.le_of_not_lt habove), ← BitVec.getLsbD_eq_getElem]

/-- Every character of a text of ten at most is read back from its packed form, the last one lowest (R122). -/
theorem getElem?_reverse_eq_extractLsb'_packText {t : Text} (hlen : t.length ≤ 10) {k : Nat} (hk : k < t.length) :
    t.reverse[k]? = some ((packText t).extractLsb' (8 * k) 8) := by
  induction t using List.reverseRecOn generalizing k with
  | nil => cases hk
  | append_singleton t b ih =>
    rw [List.length_append, List.length_singleton] at hlen hk
    rw [List.reverse_concat]
    cases k with
    | zero => rw [Nat.mul_zero, extractLsb'_zero_packText_concat, List.getElem?_cons_zero]
    | succ k =>
      rw [extractLsb'_succ_packText_concat t b (by omega), List.getElem?_cons_succ]
      exact ih (by omega) (by omega)

/-- Settles O53: the ids hold the registers' canonical pairs, and a line is ten characters of one byte each. -/
theorem binaryFormsLoseNothing : Obligations.BinaryFormsLoseNothing := by
  unfold Obligations.BinaryFormsLoseNothing
  refine ⟨fun _ _ => rfl, fun _ _ h => variantCode_injective h, fun v i hi => ?_⟩
  have hlen := length_render v
  have hchar := getElem?_reverse_eq_extractLsb'_packText hlen.le (k := 9 - i) (by omega)
  rw [List.getElem?_reverse (by omega), hlen] at hchar
  rw [← hchar]
  congr 1
  omega

end Sys2Proof.Machine
end
